-- ==== Sys2Proof/Word.lean ====
section
/-!
DEFINITION. The machine's words: 32-bit registers, addresses, instruction words and immediates, and the byte
(00_scope.md R9, R14, R15).
-/

namespace Sys2Proof

/-- A Word: an unsigned integer in 0 .. 2^32-1 (R15); `+` on it is addition modulo 2^32 (R17). -/
abbrev Word := BitVec 32

/-- The smallest addressable unit (R9). -/
abbrev Byte := BitVec 8

/-- A register index: the 5-bit fields `rd`, `rs1`, `rs2` (R31). -/
abbrev Reg := BitVec 5

end Sys2Proof
end

