-- ==== Sys2Proof/Syntax.lean ====
section
/-!
DEFINITION. The instructions: the ten constructors 40_step_sequence.md R148 asks for, one per row of
spec/opcode_table.json. Immediates are the Words the Decoder produces (R15, R46); an instruction whose format has no
immediate has no immediate field (R47, R115).
-/

namespace Sys2Proof

/-- A decoded instruction (R148), with the operands of its rule. The bits the hardware does not examine (funct3 of SW
and BNE, R120) are no operands. SLLI keeps its whole I-format immediate, which its meaning masks (R117). -/
inductive Instr where
  /-- ADD (R170) -/
  | add (rd rs1 rs2 : Reg)
  /-- SLT (R171) -/
  | slt (rd rs1 rs2 : Reg)
  /-- ADDI (R180) -/
  | addi (rd rs1 : Reg) (imm : Word)
  /-- SLLI (R181) -/
  | slli (rd rs1 : Reg) (imm : Word)
  /-- SW (R190): base `rs1`, data `rs2` -/
  | sw (rs1 rs2 : Reg) (imm : Word)
  /-- BNE (R200) -/
  | bne (rs1 rs2 : Reg) (imm : Word)
  /-- AUIPC (R210) -/
  | auipc (rd : Reg) (imm : Word)
  /-- JAL (R220) -/
  | jal (rd : Reg) (imm : Word)
  /-- HALT, the all-zero word (R230) -/
  | halt
  /-- every other word: an unsupported opcode (R232) or a reserved sub-function (R234), with the word itself, which
  the diagnostic carries (R233) -/
  | unsupported (ir : Word)
deriving DecidableEq, Repr

/-- The mnemonic of an instruction's row in the opcode table. -/
def Instr.mnemonic : Instr → String
  | .add _ _ _ => "ADD"
  | .slt _ _ _ => "SLT"
  | .addi _ _ _ => "ADDI"
  | .slli _ _ _ => "SLLI"
  | .sw _ _ _ => "SW"
  | .bne _ _ _ => "BNE"
  | .auipc _ _ => "AUIPC"
  | .jal _ _ => "JAL"
  | .halt => "HALT"
  | .unsupported _ => "UNSUPPORTED"

/-- A row of the opcode table (R119): a word `w` is the instruction of the row when `w AND mask = value`. -/
structure OpcodeRow where
  mnemonic : String
  mask : Word
  value : Word
deriving DecidableEq, Repr

/-- The nine instruction rows of R119 in the order of R118; the tenth row of spec/opcode_table.json is the default,
which takes every word that no row here matches. -/
def opcodeRows : List OpcodeRow := [
  ⟨"HALT",  0xFFFFFFFF#32, 0x00000000#32⟩,
  ⟨"ADD",   0xFE00707F#32, 0x00000033#32⟩,
  ⟨"SLT",   0xFE00707F#32, 0x00002033#32⟩,
  ⟨"ADDI",  0x0000707F#32, 0x00000013#32⟩,
  ⟨"SLLI",  0x0000707F#32, 0x00001013#32⟩,
  ⟨"SW",    0x0000007F#32, 0x00000023#32⟩,
  ⟨"BNE",   0x0000007F#32, 0x00000063#32⟩,
  ⟨"AUIPC", 0x0000007F#32, 0x00000017#32⟩,
  ⟨"JAL",   0x0000007F#32, 0x0000006F#32⟩]

/-- Does a word belong to a row? -/
def OpcodeRow.covers (r : OpcodeRow) (w : Word) : Bool := w &&& r.mask == r.value

/-- The mnemonic the opcode table gives a word: that of the first row that covers it, else the default row's. -/
def tableMnemonic (w : Word) : String :=
  ((opcodeRows.find? (·.covers w)).map OpcodeRow.mnemonic).getD "UNSUPPORTED"

end Sys2Proof
end

