-- ==== Sys2Proof/Decode.lean ====
section
/-!
DEFINITION. The Decoder (30_encoding.md; 40_step_sequence.md R143): fixed fields, the five immediates, the order of the
tests, the byte order of a word, and the encoder. Decoding is total on words (R118) and, on bytes, rejects by name what is
shorter than one instruction.
-/

namespace Sys2Proof

-- The fixed fields (R101).

/-- `ir[6:0]` -/
def fieldOpcode (w : Word) : BitVec 7 := w.extractLsb' 0 7
/-- `ir[11:7]` -/
def fieldRd (w : Word) : Reg := w.extractLsb' 7 5
/-- `ir[14:12]` -/
def fieldFunct3 (w : Word) : BitVec 3 := w.extractLsb' 12 3
/-- `ir[19:15]` -/
def fieldRs1 (w : Word) : Reg := w.extractLsb' 15 5
/-- `ir[24:20]` -/
def fieldRs2 (w : Word) : Reg := w.extractLsb' 20 5
/-- `ir[31:25]` -/
def fieldFunct7 (w : Word) : BitVec 7 := w.extractLsb' 25 7

-- The immediates (R110 to R116).

/-- `sext_N`: the Word with the same signed value as the N-bit field (R16, R116). -/
def sext {n : Nat} (f : BitVec n) : Word := f.signExtend 32

/-- Opcode 0x13: `sext_12(ir[31:20])` (R110). -/
def immI (w : Word) : Word := sext (w.extractLsb' 20 12)

/-- Opcode 0x23: `sext_12({ir[31:25], ir[11:7]})` (R111). -/
def immS (w : Word) : Word := sext (w.extractLsb' 25 7 ++ w.extractLsb' 7 5)

/-- Opcode 0x63: `sext_13({ir[31], ir[7], ir[30:25], ir[11:8], 1'b0})` (R112). -/
def immB (w : Word) : Word :=
  sext (w.extractLsb' 31 1 ++ w.extractLsb' 7 1 ++ w.extractLsb' 25 6 ++ w.extractLsb' 8 4 ++ 0#1)

/-- Opcode 0x17: `{ir[31:12], 12'b0}` (R113). -/
def immU (w : Word) : Word := w.extractLsb' 12 20 ++ 0#12

/-- Opcode 0x6F: `sext_21({ir[31], ir[19:12], ir[20], ir[30:21], 1'b0})` (R114). -/
def immJ (w : Word) : Word :=
  sext (w.extractLsb' 31 1 ++ w.extractLsb' 12 8 ++ w.extractLsb' 20 1 ++ w.extractLsb' 21 10 ++ 0#1)

-- Decoding (R118, R119, R140).

/-- Opcode 0x33: funct7 and funct3 select the instruction; every other value is a reserved sub-function (R122, R172). -/
def decodeRegReg (w : Word) : Instr :=
  if fieldFunct7 w = 0#7 ∧ fieldFunct3 w = 0#3 then .add (fieldRd w) (fieldRs1 w) (fieldRs2 w)
  else if fieldFunct7 w = 0#7 ∧ fieldFunct3 w = 2#3 then .slt (fieldRd w) (fieldRs1 w) (fieldRs2 w)
  else .unsupported w

/-- Opcode 0x13: funct3 selects the instruction; every other value is a reserved sub-function (R122, R182). -/
def decodeRegImm (w : Word) : Instr :=
  if fieldFunct3 w = 0#3 then .addi (fieldRd w) (fieldRs1 w) (immI w)
  else if fieldFunct3 w = 1#3 then .slli (fieldRd w) (fieldRs1 w) (immI w)
  else .unsupported w

/-- The decoder, total on all 2^32 words: the zero word first, then the opcode (R118). -/
def decodeWord (w : Word) : Instr :=
  if w = 0#32 then .halt
  else if fieldOpcode w = 0x33#7 then decodeRegReg w
  else if fieldOpcode w = 0x13#7 then decodeRegImm w
  else if fieldOpcode w = 0x23#7 then .sw (fieldRs1 w) (fieldRs2 w) (immS w)
  else if fieldOpcode w = 0x63#7 then .bne (fieldRs1 w) (fieldRs2 w) (immB w)
  else if fieldOpcode w = 0x17#7 then .auipc (fieldRd w) (immU w)
  else if fieldOpcode w = 0x6F#7 then .jal (fieldRd w) (immJ w)
  else .unsupported w

/-- The reserved sub-functions: a supported opcode with an unlisted funct3 or funct7 (R122). -/
def isReservedSubfunc (w : Word) : Bool :=
  (fieldOpcode w == 0x33#7 && !(fieldFunct7 w == 0#7 && (fieldFunct3 w == 0#3 || fieldFunct3 w == 2#3)))
  || (fieldOpcode w == 0x13#7 && !(fieldFunct3 w == 0#3 || fieldFunct3 w == 1#3))

-- Bytes (R74).

/-- The Word whose bytes are, from the lowest address up, `b0 b1 b2 b3`: little-endian (R74, D6). -/
def wordOfBytes (b0 b1 b2 b3 : Byte) : Word := b3 ++ b2 ++ b1 ++ b0

/-- The byte of a Word at offset `k` from its address: bits `8k+7 .. 8k` (R74). -/
def byteOfWord (w : Word) (k : Nat) : Byte := w.extractLsb' (8 * k) 8

/-- Why a list of bytes holds no instruction. -/
inductive DecodeError where
  /-- fewer than the four bytes of an instruction (R100); safe: nothing is decoded -/
  | truncated (count : Nat)
deriving DecidableEq, Repr

/-- The instruction at the head of a list of bytes, and the bytes after it. -/
def decode : List Byte → Except DecodeError (Instr × List Byte)
  | b0 :: b1 :: b2 :: b3 :: rest => .ok (decodeWord (wordOfBytes b0 b1 b2 b3), rest)
  | short => .error (.truncated short.length)

-- Encoding (R103 to R108, R129).

/-- The register-register format (R103). -/
def encodeR (f7 : BitVec 7) (rs2 rs1 : Reg) (f3 : BitVec 3) (rd : Reg) : Word := f7 ++ rs2 ++ rs1 ++ f3 ++ rd ++ 0x33#7

/-- The register-immediate format (R104). -/
def encodeI (imm : Word) (rs1 : Reg) (f3 : BitVec 3) (rd : Reg) : Word :=
  imm.extractLsb' 0 12 ++ rs1 ++ f3 ++ rd ++ 0x13#7

/-- The store format (R105); funct3 is the assembler's `010` (R129). -/
def encodeS (imm : Word) (rs2 rs1 : Reg) : Word :=
  imm.extractLsb' 5 7 ++ rs2 ++ rs1 ++ 2#3 ++ imm.extractLsb' 0 5 ++ 0x23#7

/-- The branch format (R106); funct3 is the assembler's `001` (R129). -/
def encodeB (imm : Word) (rs2 rs1 : Reg) : Word :=
  imm.extractLsb' 12 1 ++ imm.extractLsb' 5 6 ++ rs2 ++ rs1 ++ 1#3 ++ imm.extractLsb' 1 4 ++ imm.extractLsb' 11 1 ++ 0x63#7

/-- The upper-immediate format (R107). -/
def encodeU (imm : Word) (rd : Reg) : Word := imm.extractLsb' 12 20 ++ rd ++ 0x17#7

/-- The jump format (R108). -/
def encodeJ (imm : Word) (rd : Reg) : Word :=
  imm.extractLsb' 20 1 ++ imm.extractLsb' 1 10 ++ imm.extractLsb' 11 1 ++ imm.extractLsb' 12 8 ++ rd ++ 0x6F#7

/-- The word of an instruction, its fields placed by R103 to R108. funct3 of SW and BNE is as R129 writes it; bits 31:25 of
SLLI are those of its immediate (log entry 13). -/
def encode : Instr → Word
  | .add rd rs1 rs2 => encodeR 0#7 rs2 rs1 0#3 rd
  | .slt rd rs1 rs2 => encodeR 0#7 rs2 rs1 2#3 rd
  | .addi rd rs1 imm => encodeI imm rs1 0#3 rd
  | .slli rd rs1 imm => encodeI imm rs1 1#3 rd
  | .sw rs1 rs2 imm => encodeS imm rs2 rs1
  | .bne rs1 rs2 imm => encodeB imm rs2 rs1
  | .auipc rd imm => encodeU imm rd
  | .jal rd imm => encodeJ imm rd
  | .halt => 0#32
  | .unsupported ir => ir

-- The host's reading of the decoder.

/-- The four bytes, as memory holds them, of an instruction whose low `nbits` bits are those of `w` and whose other
bits are 0. -/
def tableBytes (nbits w : Nat) : List Byte :=
  (List.range 4).map (byteOfWord (BitVec.ofNat 32 (w % 2 ^ nbits)))

/-- The instruction the decoder reads from a word of the opcode table. -/
def decodeTableWord (nbits w : Nat) : Option Instr :=
  match decode (tableBytes nbits w) with
  | .ok (i, _) => some i
  | .error _ => none

end Sys2Proof
end

