-- ==== Sys2Proof/Config.lean ====
section
/-!
DEFINITION. What an implementation fixes: the parameters of 00_scope.md R10, with the value State.reset takes for
each one the spec leaves open.
-/

namespace Sys2Proof

/-- A range of byte addresses the memory provider serves. A finite list of regions can say any predicate
`MemValid` on word addresses (R80). -/
structure Region where
  base : Nat
  size : Nat
deriving DecidableEq, Repr

/-- The two values of the parameter `RESERVED_SUBFUNC` (R10, R234). -/
inductive ReservedSubfunc where
  /-- diagnostic and halt: the value of this spec -/
  | halt
  /-- the literal fall-through: the step completes and changes only `nxt.pc` -/
  | nop
deriving DecidableEq, Repr

/-- `RESERVED_SUBFUNC`: "A model must use `halt`" (R234; log entry 6). -/
def Config.reservedSubfunc : ReservedSubfunc := .halt

/-- DESIGN CHOICE (unsafe): `RESET_PC` of State.reset, 0 as in the spec's test vectors (R57; log entry 1). -/
def Config.resetPc : Word := 0#32

/-- DESIGN CHOICE (unsafe): `INIT_REGS` of State.reset, x1 to x31, all zero (R57; log entry 2). -/
def Config.initRegs : Vector Word 31 := Vector.replicate 31 0#32

/-- DESIGN CHOICE (unsafe): what an unlisted byte of memory reads as (R71; log entry 4). -/
def Config.unlistedByte : Byte := 0#8

/-- DESIGN CHOICE (unsafe): the `MemValid` of State.reset, the whole address space (R80; log entry 5). -/
def Config.served : List Region := [⟨0, 4294967296⟩]

end Sys2Proof
end

