-- ==== Sys2Proof/Machine/State.lean ====
section
/-!
DEFINITION. The state of the machine as plain data (10_state.md), the reasons a step can stop, and the state after
reset (R57).
-/

namespace Sys2Proof.Machine

/-- Memory: the bytes that do not read as `Config.unlistedByte`, by strictly rising address (R49, R71). -/
abbrev Memory := List Host.Cell

/-- One copy of the architectural state: a program counter and 32 registers (R30, R31). -/
structure Arch where
  pc : Word
  x  : Vector Word 32
deriving DecidableEq, Repr

/-- Where the driver's loop stands (R295 `L-idle`, R305): the model's own field (log entry 9). -/
inductive Phase where
  /-- the last step, if any, has been committed -/
  | idle
  /-- a step has been performed and its commit has not -/
  | stepped
deriving DecidableEq, Repr

/-- A request on the memory interface, with its address and data, and whether the provider answered or refused it
(R51, R58). -/
inductive Request where
  /-- `read_word(addr)`, replied with `data` -/
  | readWord (addr data : Word)
  /-- `write_word(addr, data)`, done -/
  | writeWord (addr data : Word)
  /-- `read_word(addr)`, replied with a fault -/
  | readRefused (addr : Word)
  /-- `write_word(addr, data)`, replied with a fault -/
  | writeRefused (addr data : Word)
deriving DecidableEq, Repr

/-- The diagnostic event `diag(pc, ir)` (R55, R233). -/
structure Diag where
  pc : Word
  ir : Word
deriving DecidableEq, Repr

/-- The state of the machine. -/
structure State where
  /-- the committed copy of the architectural state, which a step reads (R30, R39) -/
  cur : Arch
  /-- the copy a step writes (R30, R39) -/
  nxt : Arch
  /-- the run flag: true is RUNNING, false is HALTED (R41) -/
  run : Bool
  /-- the contents of memory (R49, R71) -/
  mem : Memory
  /-- the provider's `MemValid` (R80), fixed for a run (log entry 5) -/
  served : List Region
  /-- the model's own: is a step waiting for its commit (log entry 9) -/
  phase : Phase
  /-- the `diag` output of the last step (R55; log entry 10) -/
  diag : Option Diag
  /-- the memory requests of the last step, in order (R58, R76; log entry 11) -/
  bus : List Request
deriving DecidableEq, Repr

/-- What a fault leaves defined: memory as before the step (R256), what the provider serves, and the requests the
step made, the refused one last (R58). `cur`, `nxt` and `run` are not defined, and no step follows (R256; log entry 15). -/
structure Aftermath where
  mem    : Memory
  served : List Region
  bus    : List Request
deriving DecidableEq, Repr

/-- The faults of R250. A fault ends the run as an error; what it leaves is no state a step can go on from (R256). Each is
safe: the real provider might tolerate the access, and then a true claim is out of reach. -/
inductive Fault where
  /-- code 2, by the Fetcher's read: the pc is no multiple of 4 (R78, R253); records the pc; safe -/
  | fetchMisaligned (pc : Word) (left : Aftermath)
  /-- code 3, by the Fetcher's read: the aligned pc is not served (R80, R253); records the pc; safe -/
  | fetchAccess (pc : Word) (left : Aftermath)
  /-- code 4, by SW's write: the address is no multiple of 4 (R78, R254); records the address; safe -/
  | storeMisaligned (addr : Word) (left : Aftermath)
  /-- code 5, by SW's write: the aligned address is not served (R80, R254); records the address; safe -/
  | storeAccess (addr : Word) (left : Aftermath)
deriving DecidableEq, Repr

/-- Why a request of the driver has no transition. No instruction ends in one of these; each is safe, since the model
stops where the spec's contract ends. -/
inductive Refusal where
  /-- an instruction without a meaning; no arm of this model raises it; safe -/
  | notModelled (mnemonic : String)
  /-- by a step requested while `run = 0`: "a model has no step from a state with run = 0" (R42, R306, D11, U11); safe -/
  | halted
  /-- by a step requested before the commit of the last one (R305, U14); safe -/
  | stepBeforeCommit
  /-- by a commit that no step precedes (R53, U5, U14, D19); safe -/
  | commitBeforeStep
  /-- by a reset inside an instruction cycle, which has no meaning (R292); safe -/
  | resetInsideCycle
deriving DecidableEq, Repr

/-- The outcome of a step, a commit or a reset on this machine. -/
abbrev Result := Host.Outcome State Fault Refusal

/-- The arguments of a launch: every parameter the spec leaves OPEN (R57, R10), and the unspecified `nxt`. -/
structure Launch where
  /-- `RESET_PC` -/
  resetPc : Word
  /-- `INIT_REGS`: x1 to x31 -/
  initRegs : Vector Word 31
  /-- the unspecified reset contents of `nxt` -/
  nxt : Arch
  /-- `MEM_INIT`: the image the loader placed -/
  memInit : Memory
  /-- `MemValid` -/
  served : List Region
deriving DecidableEq, Repr

/-- The register file after reset: x0 is 0, the others are `INIT_REGS` (R57). -/
def Launch.regs (l : Launch) : Vector Word 32 := ⟨(0#32 :: l.initRegs.toList).toArray, by simp⟩

/-- The state right after a reset with the arguments of a launch (R57, R290). -/
def State.launch (l : Launch) : State where
  cur := ⟨l.resetPc, l.regs⟩
  nxt := l.nxt
  run := true
  mem := l.memInit
  served := l.served
  phase := .idle
  diag := none
  bus := []

/-- The launch State.reset is: the values of Config for the open parameters, nothing in memory, and zeros in the
unspecified `nxt` (log entries 1 to 5). -/
def Launch.plain : Launch where
  resetPc := Config.resetPc
  initRegs := Config.initRegs
  nxt := ⟨0#32, Vector.replicate 32 0#32⟩
  memInit := []
  served := Config.served

/-- The machine right after reset. -/
def State.reset : State := State.launch Launch.plain

end Sys2Proof.Machine
end

