-- ==== Sys2Proof/Machine/Mem.lean ====
section
/-!
DEFINITION. The memory provider (20_memory.md): bytes by address in one canonical form, `MemValid`, and the two
operations of its contract, MemRead (R72) and MemWrite (R73).
-/

namespace Sys2Proof.Machine

/-- The byte at an address. -/
def Memory.readByte : Memory → Nat → Byte
  | [], _ => Config.unlistedByte
  | (b, u) :: m, a => if a = b then u else Memory.readByte m a

/-- Every listed address lies above `a`. -/
def Memory.above (a : Nat) (m : Memory) : Bool := m.all fun c => decide (a < c.1)

/-- The canonical form: strictly rising addresses inside the 32-bit space, and no entry that reads as an unlisted one. -/
def Memory.wf : Memory → Bool
  | [] => true
  | (a, v) :: m => decide (a < 4294967296) && (v != Config.unlistedByte) && Memory.above a m && Memory.wf m

/-- Put a byte in front of a memory whose addresses all lie above its address; the unlisted byte leaves no entry. -/
def Memory.consByte (a : Nat) (v : Byte) (m : Memory) : Memory :=
  if v = Config.unlistedByte then m else (a, v) :: m

/-- Memory with the byte at an address replaced. -/
def Memory.writeByte : Memory → Nat → Byte → Memory
  | [], a, v => Memory.consByte a v []
  | (b, u) :: m, a, v =>
    if a < b then Memory.consByte a v ((b, u) :: m)
    else if a = b then Memory.consByte a v m
    else (b, u) :: Memory.writeByte m a v

/-- The Word at byte addresses `a .. a+3` (R72, R74). -/
def Memory.wordAt (m : Memory) (a : Word) : Word :=
  wordOfBytes (m.readByte a.toNat) (m.readByte (a + 1#32).toNat) (m.readByte (a + 2#32).toNat) (m.readByte (a + 3#32).toNat)

/-- Memory with a Word stored at byte addresses `a .. a+3` (R73, R74). -/
def Memory.setWord (m : Memory) (a v : Word) : Memory :=
  (((m.writeByte a.toNat (byteOfWord v 0)).writeByte (a + 1#32).toNat (byteOfWord v 1)).writeByte
    (a + 2#32).toNat (byteOfWord v 2)).writeByte (a + 3#32).toNat (byteOfWord v 3)

/-- A program as words at addresses (R293, R295). -/
abbrev Image := List (Word × Word)

/-- Memory with an image placed by the loader, before the first step (R293). -/
def Memory.loadImage (m : Memory) (p : Image) : Memory := p.foldr (fun q n => n.setWord q.1 q.2) m

/-- Is an address a multiple of 4 (R77)? -/
def isAligned (a : Word) : Bool := a.toNat % 4 == 0

/-- A region serves a word when it holds all four of its bytes. -/
def regionServes (a : Word) (r : Region) : Bool := decide (r.base ≤ a.toNat) && decide (a.toNat + 4 ≤ r.base + r.size)

/-- `MemValid(a)` (R80). -/
def memValid (served : List Region) (a : Word) : Bool := served.any (regionServes a)

/-- Why the provider refuses an access. -/
inductive AccessError where
  /-- the address is no multiple of 4 (R78) -/
  | misaligned
  /-- the address is aligned and `MemValid` is false (R80) -/
  | notServed
deriving DecidableEq, Repr

/-- The provider's test of an address, alignment first (R72, R73, R259). -/
def checkAccess (s : State) (a : Word) : Except AccessError Unit :=
  if isAligned a = false then .error .misaligned
  else if memValid s.served a = false then .error .notServed
  else .ok ()

/-- `MemRead(a, 4)`: the provider's `read_word` (R72); it changes nothing. -/
def memRead (s : State) (a : Word) : Except AccessError Word :=
  match checkAccess s a with
  | .ok _ => .ok (s.mem.wordAt a)
  | .error e => .error e

/-- `MemWrite(a, 4, v)`: the provider's `write_word` (R73), with the request put on record (R58). -/
def memWrite (s : State) (a v : Word) : Except AccessError State :=
  match checkAccess s a with
  | .ok _ => .ok { s with mem := s.mem.setWord a v, bus := s.bus ++ [.writeWord a v] }
  | .error e => .error e

end Sys2Proof.Machine
end

