-- ==== Sys2Proof/Machine/Ops.lean ====
section
/-!
DEFINITION. The named operations every step is made of: the driver's conditions, the Fetcher (R141), the Executor's
frame (R145), register and pc writes (R18, R19), taking a halt (R262), what a fault leaves (R256), the commit (R40) and the
reset input (R56).
-/

namespace Sys2Proof.Machine

/-- `x[i]`: register `i` of the current state (R18). Register 0 is a stored Word kept at zero (R32, D21; log entry 20). -/
def readReg (s : State) (r : Reg) : Word := s.cur.x[r.toNat]'r.isLt

/-- `x[i] <- v`: register `i` of the next state (R18). -/
def writeReg (s : State) (r : Reg) (v : Word) : State :=
  { s with nxt := { s.nxt with x := s.nxt.x.set r.toNat v r.isLt } }

/-- `pc <- t`: the pc of the next state (R19). -/
def writePc (s : State) (t : Word) : State := { s with nxt := { s.nxt with pc := t } }

/-- The Executor's first action: copy every register from current to next (R146). -/
def copyRegs (s : State) : State := { s with nxt := { s.nxt with x := s.cur.x } }

/-- The Executor's last action: force register 0 of the next state to zero (R149). -/
def forceZero (s : State) : State := writeReg s 0#5 0#32

/-- The Executor around one arm of its dispatch: copy the registers, the arm, force register 0 (R145). An arm that
faults ends the step there (R21). -/
def executor (arm : State → Result) (s : State) : Result :=
  match arm (copyRegs s) with
  | .next t => .next (forceZero t)
  | .fault f => .fault f
  | .refused r => .refused r

/-- The two halt causes (R250). -/
inductive HaltCause where
  /-- code 0: the zero word, no diagnostic -/
  | sentinel
  /-- code 1: an unsupported word, with its diagnostic -/
  | unsupported (ir : Word)
deriving DecidableEq, Repr

/-- The whole response to a halt cause, one operation for both: clear `run`, and for `Unsupported` emit
`diag(cur.pc, ir)` (R21, R230, R232, R262). There is no trap entry, and no return from one (R262, R263). -/
def takeHalt (c : HaltCause) (s : State) : State :=
  match c with
  | .sentinel => { s with run := false }
  | .unsupported ir => { s with run := false, diag := some ⟨s.cur.pc, ir⟩ }

/-- The conditions under which a step is accepted (R52, R140): `run = 1` and no step in flight. -/
def rejectStep (s : State) : Option Refusal :=
  if s.run = false then some .halted
  else if s.phase = .stepped then some .stepBeforeCommit
  else none

/-- What the Fetcher leaves when it has read `ir`: the default next pc and the request on record (R141). A new step
has emitted nothing yet. -/
def fetched (s : State) (ir : Word) : State :=
  { s with
    nxt := { s.nxt with pc := s.cur.pc + 4#32 }
    phase := .stepped
    diag := none
    bus := [.readWord s.cur.pc ir] }

/-- What a fault leaves of a state: memory, `MemValid` and the requests made (R58, R256). -/
def aftermath (s : State) (requests : List Request) : Aftermath := ⟨s.mem, s.served, requests⟩

/-- What a fault leaves. -/
def Fault.left : Fault → Aftermath
  | .fetchMisaligned _ left => left
  | .fetchAccess _ left => left
  | .storeMisaligned _ left => left
  | .storeAccess _ left => left

/-- The address a fault records (R250). -/
def Fault.addr : Fault → Word
  | .fetchMisaligned pc _ => pc
  | .fetchAccess pc _ => pc
  | .storeMisaligned addr _ => addr
  | .storeAccess addr _ => addr

/-- The code of a fault in the list of R250. -/
def Fault.code : Fault → Nat
  | .fetchMisaligned _ _ => 2
  | .fetchAccess _ _ => 3
  | .storeMisaligned _ _ => 4
  | .storeAccess _ _ => 5

/-- The Fetcher: read the word at `cur.pc` and write the default next pc (R141, R142); a refused read is a fault
(R253). -/
def fetch (s : State) : Except Fault (Word × State) :=
  match memRead s s.cur.pc with
  | .ok ir => .ok (ir, fetched s ir)
  | .error .misaligned => .error (.fetchMisaligned s.cur.pc (aftermath s [.readRefused s.cur.pc]))
  | .error .notServed => .error (.fetchAccess s.cur.pc (aftermath s [.readRefused s.cur.pc]))

/-- The `commit` input: copy next into current (R40); refused where no step precedes it (R53). -/
def commit (s : State) : Result :=
  if s.phase = .stepped then .next { s with cur := s.nxt, phase := .idle } else .refused .commitBeforeStep

/-- The reset state of R57 with memory untouched (R292). Which addresses the provider serves does not change either (log
entry 9). -/
def resetWith (l : Launch) (m : Memory) (served : List Region) : State :=
  { State.launch l with mem := m, served := served }

/-- The `reset` input (R56, R292): the reset state of R57 with memory untouched; it has no meaning inside an instruction
cycle of a running machine. -/
def resetInput (l : Launch) (s : State) : Result :=
  if s.run = true ∧ s.phase = .stepped then .refused .resetInsideCycle
  else .next (resetWith l s.mem s.served)

/-- The `reset` input after a fault, the only input the block then accepts (R56, R256, R292): the reset state of R57 with
memory as the fault left it. -/
def resetAfterFault (l : Launch) (f : Fault) : State := resetWith l f.left.mem f.left.served

/-- Memory with an instruction word stored where the Fetcher reads next. -/
def placeWord (s : State) (w : Word) : State := { s with mem := s.mem.setWord s.cur.pc w }

end Sys2Proof.Machine
end

