-- ==== Sys2Proof/Machine/Flags.lean ====
section
/-!
DEFINITION. This hardware has no status flags and no condition codes (R43). What stands here are the two comparisons
that take their place (R173).
-/

namespace Sys2Proof.Machine

/-- SLT's result: 1 when the first Word is less than the second as signed values, else 0 (R171, R173). -/
def setIfLessSigned (a b : Word) : Word := if a.toInt < b.toInt then 1#32 else 0#32

/-- BNE's condition: the two Words differ in some bit (R200, R173). -/
def branchTaken (a b : Word) : Bool := a != b

end Sys2Proof.Machine
end

