-- ==== Sys2Proof/Machine/Operands.lean ====
section
/-!
DEFINITION. The operand forms beyond a plain register and a plain immediate: the shift amount, the store address, the
pc-relative value and the link value.
-/

namespace Sys2Proof.Machine

/-- The shift amount of SLLI: `imm AND 0x1F` (R117, R181). -/
def shiftAmount (imm : Word) : Nat := (imm &&& 0x1F#32).toNat

/-- The store address: `x[rs1] + imm` modulo 2^32, the one addressing mode (R79, R192). -/
def storeAddress (s : State) (rs1 : Reg) (imm : Word) : Word := readReg s rs1 + imm

/-- `cur.pc + imm` modulo 2^32: the value of AUIPC and the target of BNE and JAL (R35, R38). -/
def pcRelative (s : State) (imm : Word) : Word := s.cur.pc + imm

/-- The link value: the address after the instruction (R35, R220). -/
def linkValue (s : State) : Word := s.cur.pc + 4#32

end Sys2Proof.Machine
end

