-- ==== Sys2Proof/Machine/Branch.lean ====
section
/-!
DEFINITION. The branch instruction (44_branch.md).
-/

namespace Sys2Proof.Machine

/-- BNE: `if x[rs1] != x[rs2] then pc <- (cur.pc + imm) mod 2^32`, else the Fetcher's default stays (R200). -/
def execBne (rs1 rs2 : Reg) (imm : Word) (s : State) : Result :=
  executor (fun t =>
    .next (if branchTaken (readReg t rs1) (readReg t rs2) = true then writePc t (pcRelative t imm) else t)) s

end Sys2Proof.Machine
end

