-- ==== Sys2Proof/Machine/Halt.lean ====
section
/-!
DEFINITION. The halt sentinel and the unsupported words (47_halt_unsupported.md).
-/

namespace Sys2Proof.Machine

/-- HALT: clear the run flag; no diagnostic (R230). -/
def execHalt (s : State) : Result := executor (fun t => .next (takeHalt .sentinel t)) s

/-- What an unsupported word does: diagnostic and halt (R232). For a reserved sub-function the parameter
`RESERVED_SUBFUNC` decides, and its other value completes with nothing changed (R234). -/
def unsupportedArm (p : ReservedSubfunc) (ir : Word) (t : State) : State :=
  if p = .nop ∧ isReservedSubfunc ir = true then t else takeHalt (.unsupported ir) t

/-- UNSUPPORTED, with the spec's value of `RESERVED_SUBFUNC` (R232, R234; log entry 6). -/
def execUnsupported (ir : Word) (s : State) : Result :=
  executor (fun t => .next (unsupportedArm Config.reservedSubfunc ir t)) s

end Sys2Proof.Machine
end

