-- ==== Sys2Proof/Machine/Jump.lean ====
section
/-!
DEFINITION. The jump-and-link instruction (46_jal.md).
-/

namespace Sys2Proof.Machine

/-- JAL: `x[rd] <- (cur.pc + 4) mod 2^32; pc <- (cur.pc + imm) mod 2^32` (R220). -/
def execJal (rd : Reg) (imm : Word) (s : State) : Result :=
  executor (fun t => .next (writePc (writeReg t rd (linkValue t)) (pcRelative t imm))) s

end Sys2Proof.Machine
end

