-- ==== Sys2Proof/Machine/RegImm.lean ====
section
/-!
DEFINITION. The register-immediate instructions (42_reg_imm.md).
-/

namespace Sys2Proof.Machine

/-- ADDI: `x[rd] <- (x[rs1] + imm) mod 2^32` (R180). -/
def execAddi (rd rs1 : Reg) (imm : Word) (s : State) : Result :=
  executor (fun t => .next (writeReg t rd (readReg t rs1 + imm))) s

/-- SLLI: `x[rd] <- (x[rs1] << (imm AND 0x1F)) mod 2^32` (R181). -/
def execSlli (rd rs1 : Reg) (imm : Word) (s : State) : Result :=
  executor (fun t => .next (writeReg t rd (readReg t rs1 <<< shiftAmount imm))) s

end Sys2Proof.Machine
end

