-- ==== Sys2Proof/Machine/RegReg.lean ====
section
/-!
DEFINITION. The register-register instructions (41_reg_reg.md).
-/

namespace Sys2Proof.Machine

/-- ADD: `x[rd] <- (x[rs1] + x[rs2]) mod 2^32` (R170). -/
def execAdd (rd rs1 rs2 : Reg) (s : State) : Result :=
  executor (fun t => .next (writeReg t rd (readReg t rs1 + readReg t rs2))) s

/-- SLT: `x[rd] <- 1 if signed(x[rs1]) < signed(x[rs2]) else 0` (R171). -/
def execSlt (rd rs1 rs2 : Reg) (s : State) : Result :=
  executor (fun t => .next (writeReg t rd (setIfLessSigned (readReg t rs1) (readReg t rs2)))) s

end Sys2Proof.Machine
end

