-- ==== Sys2Proof/Machine/Store.lean ====
section
/-!
DEFINITION. The store instruction (43_store.md).
-/

namespace Sys2Proof.Machine

/-- What a refused write leaves: the requests so far, then the refused one (R58, R256). -/
def refusedWrite (s : State) (a v : Word) : Aftermath := aftermath s (s.bus ++ [.writeRefused a v])

/-- SW's arm: write `x[rs2]` at the store address; a refused write is a fault that records the address (R190, R254) and
leaves memory as it was, with the refused request on record (R58, R256). -/
def storeWordArm (rs1 rs2 : Reg) (imm : Word) (t : State) : Result :=
  match memWrite t (storeAddress t rs1 imm) (readReg t rs2) with
  | .ok u => .next u
  | .error .misaligned => .fault (.storeMisaligned (storeAddress t rs1 imm) (refusedWrite t (storeAddress t rs1 imm) (readReg t rs2)))
  | .error .notServed => .fault (.storeAccess (storeAddress t rs1 imm) (refusedWrite t (storeAddress t rs1 imm) (readReg t rs2)))

/-- SW: `MemWrite(x[rs1] + imm, 4, x[rs2])` (R190). -/
def execSw (rs1 rs2 : Reg) (imm : Word) (s : State) : Result := executor (storeWordArm rs1 rs2 imm) s

end Sys2Proof.Machine
end

