-- ==== Sys2Proof/Machine/UpperImm.lean ====
section
/-!
DEFINITION. The add-upper-immediate-to-PC instruction (45_auipc.md).
-/

namespace Sys2Proof.Machine

/-- AUIPC: `x[rd] <- (cur.pc + imm) mod 2^32` (R210). -/
def execAuipc (rd : Reg) (imm : Word) (s : State) : Result :=
  executor (fun t => .next (writeReg t rd (pcRelative t imm))) s

end Sys2Proof.Machine
end

