-- ==== Sys2Proof/Machine/Dispatch.lean ====
section
/-!
DEFINITION. The Executor's dispatch (40_step_sequence.md R148): one arm per instruction.
-/

namespace Sys2Proof.Machine

/-- The Executor on a decoded instruction, after the Fetcher (R144, R148). -/
def exec (i : Instr) (s : State) : Host.Outcome State Fault Refusal :=
  match i with
  | .add rd rs1 rs2 => Sys2Proof.Machine.execAdd rd rs1 rs2 s
  | .slt rd rs1 rs2 => Sys2Proof.Machine.execSlt rd rs1 rs2 s
  | .addi rd rs1 imm => Sys2Proof.Machine.execAddi rd rs1 imm s
  | .slli rd rs1 imm => Sys2Proof.Machine.execSlli rd rs1 imm s
  | .sw rs1 rs2 imm => Sys2Proof.Machine.execSw rs1 rs2 imm s
  | .bne rs1 rs2 imm => Sys2Proof.Machine.execBne rs1 rs2 imm s
  | .auipc rd imm => Sys2Proof.Machine.execAuipc rd imm s
  | .jal rd imm => Sys2Proof.Machine.execJal rd imm s
  | .halt => Sys2Proof.Machine.execHalt s
  | .unsupported ir => Sys2Proof.Machine.execUnsupported ir s

end Sys2Proof.Machine
end

