-- ==== Sys2Proof/Machine/Step.lean ====
section
/-!
DEFINITION. The step (40_step_sequence.md R140), the instruction cycle the host's step is (R154, R296), and the placing of
one instruction where the next step fetches.
-/

namespace Sys2Proof.Machine

/-- The block's `step` input: Fetcher, Decoder, Executor, without the commit (R52, R140). -/
def coreStep (s : State) : Host.Outcome State Fault Refusal :=
  match rejectStep s with
  | some r => .refused r
  | none =>
    match fetch s with
    | .error f => .fault f
    | .ok (ir, t) => exec (decodeWord ir) t

/-- One pass of the driver's loop: the step, then its commit, which also follows a step that halts; none after a
fault (R40, R154, R296; log entry 7). -/
def step (s : State) : Host.Outcome State Fault Refusal :=
  match coreStep s with
  | .next t => commit t
  | .fault f => .fault f
  | .refused r => .refused r

/-- `s` with an instruction of the opcode table stored at `cur.pc`; the bits from `nbits` up are 0 (log entry 18). -/
def State.withFetchWord (s : State) (nbits w : Nat) : State := placeWord s (BitVec.ofNat 32 (w % 2 ^ nbits))

end Sys2Proof.Machine
end

