-- ==== Sys2Proof/WellFormed.lean ====
section
/-!
DEFINITION. Which instructions an encoding can hold: the immediate is a value its format admits (30_encoding.md R110 to
R114), and the word of an unsupported instruction belongs to no row of the opcode table (R118, R123).
-/

namespace Sys2Proof

/-- The immediates of the I and S formats: -2048 .. 2047 (R110, R111). -/
def wfImm12 (imm : Word) : Bool := decide (-2048 ≤ imm.toInt) && decide (imm.toInt ≤ 2047)

/-- The immediates of the branch format: even, -4096 .. 4094 (R112). -/
def wfImmB (imm : Word) : Bool :=
  decide (-4096 ≤ imm.toInt) && decide (imm.toInt ≤ 4094) && decide (imm.toNat % 2 = 0)

/-- The immediates of the upper-immediate format: the low twelve bits are 0 (R113). -/
def wfImmU (imm : Word) : Bool := decide (imm.toNat % 4096 = 0)

/-- The immediates of the jump format: even, -1048576 .. 1048574 (R114). -/
def wfImmJ (imm : Word) : Bool :=
  decide (-1048576 ≤ imm.toInt) && decide (imm.toInt ≤ 1048574) && decide (imm.toNat % 2 = 0)

/-- The words of the default row: no row of the opcode table covers them. -/
def wfUnsupported (ir : Word) : Bool := opcodeRows.all fun r => !r.covers ir

/-- Well-formedness of an instruction. -/
def Instr.wf : Instr → Bool
  | .add _ _ _ => true
  | .slt _ _ _ => true
  | .addi _ _ imm => wfImm12 imm
  | .slli _ _ imm => wfImm12 imm
  | .sw _ _ imm => wfImm12 imm
  | .bne _ _ imm => wfImmB imm
  | .auipc _ imm => wfImmU imm
  | .jal _ imm => wfImmJ imm
  | .halt => true
  | .unsupported ir => wfUnsupported ir

end Sys2Proof
end

