-- ==== Sys2Proof/Safety.lean ====
section
/-!
DEFINITION. The terms claims are made in: when a step is accepted and what it fetches, the premises of a launch (R295), the
invariant of the machine, and the end of a run (R298).
-/

namespace Sys2Proof.Machine

/-- The driver may ask for a step: `run = 1` and the last step, if any, is committed (R52, R295). -/
def Accepts (s : State) : Prop := s.run = true ∧ s.phase = .idle

/-- A step is accepted and its fetch returns the word `ir` (R141). -/
def Fetches (s : State) (ir : Word) : Prop := Accepts s ∧ memRead s s.cur.pc = .ok ir

/-- The Executor's precondition on the pc: "`next.PC` holds the fetcher's default successor address" (R144). -/
def HasDefaultPc (s : State) : Prop := s.nxt.pc = s.cur.pc + 4#32

/-- Register `r` of the next state. -/
def readNxt (s : State) (r : Reg) : Word := s.nxt.x[r.toNat]'r.isLt

/-- The provider serves an access to a word: the address is a multiple of 4 and `MemValid` holds (R72, R73). -/
def Serves (s : State) (a : Word) : Prop := a.toNat % 4 = 0 ∧ memValid s.served a = true

/-- Is a byte address one of the four of the word at `a`? -/
def InWord (a : Word) (b : Nat) : Prop := a.toNat ≤ b ∧ b < a.toNat + 4

/-- `L-image`: every word of a program is at its aligned address in memory (R295). -/
def HoldsImage (p : Image) (m : Memory) : Prop := ∀ q ∈ p, q.1.toNat % 4 = 0 ∧ m.wordAt q.1 = q.2

/-- The launch premises of R295, for a launch `l` and a program `p`: `L-run`, `L-x0`, `L-pc`, `L-image` and `L-idle`.
`L-nofault` has no field to hold on: a fault is an outcome that no state records. -/
def Launched (l : Launch) (p : Image) (s : State) : Prop :=
  s.run = true ∧ readReg s 0#5 = 0#32 ∧ (s.cur.pc = l.resetPc ∧ Serves s l.resetPc) ∧ HoldsImage p s.mem ∧ s.phase = .idle

/-- What holds between instruction cycles: register 0 of the current state is zero (R32), memory is in canonical
form, no commit is owed (R295), and a diagnostic is out only once the machine has halted (R55). -/
def Inv (s : State) : Prop :=
  readReg s 0#5 = 0#32 ∧ Memory.wf s.mem = true ∧ s.phase = .idle ∧ (s.run = true → s.diag = none)

/-- A run has ended: `run = 0` and the halting step is committed (R298). -/
def RunEnded (s : State) : Prop := s.run = false ∧ s.phase = .idle

/-- The halt cause, which no register holds (R44): a halt with a diagnostic is `Unsupported`, one without is `Sentinel`
(R252). -/
def haltCause (s : State) : Option HaltCause :=
  if s.run = true then none
  else match s.diag with
    | none => some .sentinel
    | some d => some (.unsupported d.ir)

/-- The pc the cycle of an instruction leads to, by the table of R36. -/
def nextPc (s : State) : Instr → Word
  | .bne rs1 rs2 imm => if readReg s rs1 ≠ readReg s rs2 then s.cur.pc + imm else s.cur.pc + 4#32
  | .jal _ imm => s.cur.pc + imm
  | .add _ _ _ => s.cur.pc + 4#32
  | .slt _ _ _ => s.cur.pc + 4#32
  | .addi _ _ _ => s.cur.pc + 4#32
  | .slli _ _ _ => s.cur.pc + 4#32
  | .sw _ _ _ => s.cur.pc + 4#32
  | .auipc _ _ => s.cur.pc + 4#32
  | .halt => s.cur.pc + 4#32
  | .unsupported _ => s.cur.pc + 4#32

/-- The register an instruction names as its destination, by the table of R33. -/
def destOf : Instr → Option Reg
  | .add rd _ _ => some rd
  | .slt rd _ _ => some rd
  | .addi rd _ _ => some rd
  | .slli rd _ _ => some rd
  | .auipc rd _ => some rd
  | .jal rd _ => some rd
  | .sw _ _ _ => none
  | .bne _ _ _ => none
  | .halt => none
  | .unsupported _ => none

/-- The registers an instruction reads, by the table of R33. -/
def sourcesOf : Instr → List Reg
  | .add _ rs1 rs2 => [rs1, rs2]
  | .slt _ rs1 rs2 => [rs1, rs2]
  | .addi _ rs1 _ => [rs1]
  | .slli _ rs1 _ => [rs1]
  | .sw rs1 rs2 _ => [rs1, rs2]
  | .bne rs1 rs2 _ => [rs1, rs2]
  | .auipc _ _ => []
  | .jal _ _ => []
  | .halt => []
  | .unsupported _ => []

/-- The address and the data of the store an instruction makes: SW's, and no other's (R76). -/
def storeOf (s : State) : Instr → Option (Word × Word)
  | .sw rs1 rs2 imm => some (storeAddress s rs1 imm, readReg s rs2)
  | .add _ _ _ => none
  | .slt _ _ _ => none
  | .addi _ _ _ => none
  | .slli _ _ _ => none
  | .bne _ _ _ => none
  | .auipc _ _ => none
  | .jal _ _ => none
  | .halt => none
  | .unsupported _ => none

/-- The instructions that clear the run flag (R41, R42). -/
def haltsMachine : Instr → Bool
  | .halt => true
  | .unsupported _ => true
  | .add _ _ _ => false
  | .slt _ _ _ => false
  | .addi _ _ _ => false
  | .slli _ _ _ => false
  | .sw _ _ _ => false
  | .bne _ _ _ => false
  | .auipc _ _ => false
  | .jal _ _ => false

/-- Does an instruction transfer control (R202)? -/
def transfersControl : Instr → Bool
  | .bne _ _ _ => true
  | .jal _ _ => true
  | .add _ _ _ => false
  | .slt _ _ _ => false
  | .addi _ _ _ => false
  | .slli _ _ _ => false
  | .sw _ _ _ => false
  | .auipc _ _ => false
  | .halt => false
  | .unsupported _ => false

end Sys2Proof.Machine
end

