-- ==== Sys2Proof/Certificates/Slice0/Obligations.lean ====
section
/-!
DEFINITION. The statements about the machine, from the numbered rules of spec/.
-/

open Sys2Proof Sys2Proof.Machine

-- 1. Encoding.

/-- Words the spec writes out, bit by bit from the encoding tables (R129, R170 to R230, R236), decode to the instruction
they stand for. -/
def Obligations.SpecWordsDecode : Prop :=
  decodeWord 0x002081B3 = .add 3 1 2 ∧ decodeWord 0x0020A1B3 = .slt 3 1 2 ∧
  decodeWord 0x00A00293 = .addi 5 0 10 ∧ decodeWord 0xFFF08093 = .addi 1 1 0xFFFFFFFF ∧
  decodeWord 0x00419213 = .slli 4 3 4 ∧ decodeWord 0x41F19213 = .slli 4 3 0x41F ∧
  decodeWord 0xFE532E23 = .sw 6 5 0xFFFFFFFC ∧ decodeWord 0x00110023 = .sw 2 1 0 ∧
  decodeWord 0x00209463 = .bne 1 2 8 ∧ decodeWord 0x80000063 = .bne 0 0 0xFFFFF000 ∧
  decodeWord 0x12345297 = .auipc 5 0x12345000 ∧
  decodeWord 0x001000EF = .jal 1 2048 ∧ decodeWord 0x800000EF = .jal 1 0xFFF00000 ∧
  decodeWord 0x00000000 = .halt ∧ decodeWord 0x00000080 = .unsupported 0x00000080 ∧
  decodeWord 0x402081B3 = .unsupported 0x402081B3

/-- Decoding the word of a well-formed instruction gives it back, with every operand at every value its encoding admits
(R103 to R108, R110 to R114, R129). -/
def Obligations.DecodeOfEncodeIsIdentity : Prop :=
  ∀ i : Instr, i.wf = true → decodeWord (encode i) = i

/-- Every word decodes to a well-formed instruction: the decoder is total and gives no operand its format does not hold
(R110 to R114, R118). -/
def Obligations.DecodedInstructionsAreWellFormed : Prop :=
  ∀ w : Word, (decodeWord w).wf = true

/-- Encoding what a word decodes to gives the word back, but for the funct3 of a store or a branch, which is not examined
and which the assembler fills with 010 and 001 (R120, R129). That an SLLI word comes back with its unexamined bits 31:25,
where R129 writes zeros, is the model's choice: the instruction keeps its whole immediate (log entry 13). -/
def Obligations.EncodeOfDecodeKeepsExaminedBits : Prop :=
  ∀ w : Word,
    (fieldOpcode w = 0x23#7 → encode (decodeWord w) = (w &&& 0xFFFF8FFF#32) ||| 0x00002000#32) ∧
    (fieldOpcode w = 0x63#7 → encode (decodeWord w) = (w &&& 0xFFFF8FFF#32) ||| 0x00001000#32) ∧
    (fieldOpcode w ≠ 0x23#7 → fieldOpcode w ≠ 0x63#7 → encode (decodeWord w) = w)

/-- R119, R118: a word is the instruction of the row whose mask and match it satisfies, the zero word first, and of the
default row when it satisfies none; no word satisfies two rows. -/
def Obligations.DecoderFollowsOpcodeTable : Prop :=
  (∀ w : Word, (decodeWord w).mnemonic = tableMnemonic w) ∧
  (∀ w : Word, ∀ r ∈ opcodeRows, ∀ q ∈ opcodeRows, r.covers w = true → q.covers w = true → r = q)

/-- R110 to R114: where every bit of each immediate comes from, the range of each, that all of the range occurs, and which
opcode takes which immediate. -/
def Obligations.ImmediatesPlaceEveryBit : Prop :=
  (∀ w : Word, ∀ k : Nat, k < 32 →
    (immI w).getLsbD k = w.getLsbD (if k < 11 then k + 20 else 31) ∧
    (immS w).getLsbD k = w.getLsbD (if k < 5 then k + 7 else if k < 11 then k + 20 else 31) ∧
    (immB w).getLsbD k = (decide (k ≠ 0) &&
      w.getLsbD (if k < 5 then k + 7 else if k < 11 then k + 20 else if k = 11 then 7 else 31)) ∧
    (immU w).getLsbD k = (decide (12 ≤ k) && w.getLsbD k) ∧
    (immJ w).getLsbD k = (decide (k ≠ 0) &&
      w.getLsbD (if k < 11 then k + 20 else if k = 11 then 20 else if k < 20 then k else 31))) ∧
  (∀ w : Word, immU w = w &&& 0xFFFFF000#32) ∧
  (∀ w : Word, (-2048 ≤ (immI w).toInt ∧ (immI w).toInt ≤ 2047) ∧ (-2048 ≤ (immS w).toInt ∧ (immS w).toInt ≤ 2047) ∧
    (-4096 ≤ (immB w).toInt ∧ (immB w).toInt ≤ 4094 ∧ (immB w).toNat % 2 = 0) ∧
    ((immU w).toNat % 4096 = 0 ∧ -2147483648 ≤ (immU w).toInt ∧ (immU w).toInt ≤ 2147479552) ∧
    (-1048576 ≤ (immJ w).toInt ∧ (immJ w).toInt ≤ 1048574 ∧ (immJ w).toNat % 2 = 0)) ∧
  (∀ v : Word,
    (wfImm12 v = true → (∃ w, fieldOpcode w = 0x13#7 ∧ immI w = v) ∧ (∃ w, fieldOpcode w = 0x23#7 ∧ immS w = v)) ∧
    (wfImmB v = true → ∃ w, fieldOpcode w = 0x63#7 ∧ immB w = v) ∧
    (wfImmU v = true → ∃ w, fieldOpcode w = 0x17#7 ∧ immU w = v) ∧
    (wfImmJ v = true → ∃ w, fieldOpcode w = 0x6F#7 ∧ immJ w = v)) ∧
  (∀ w : Word,
    (fieldOpcode w = 0x13#7 → decodeWord w = .addi (fieldRd w) (fieldRs1 w) (immI w) ∨
      decodeWord w = .slli (fieldRd w) (fieldRs1 w) (immI w) ∨ isReservedSubfunc w = true) ∧
    (fieldOpcode w = 0x23#7 → decodeWord w = .sw (fieldRs1 w) (fieldRs2 w) (immS w)) ∧
    (fieldOpcode w = 0x63#7 → decodeWord w = .bne (fieldRs1 w) (fieldRs2 w) (immB w)) ∧
    (fieldOpcode w = 0x17#7 → decodeWord w = .auipc (fieldRd w) (immU w)) ∧
    (fieldOpcode w = 0x6F#7 → decodeWord w = .jal (fieldRd w) (immJ w))) ∧
  immI 0x80000013 = 0xFFFFF800 ∧ immI 0x7FF00013 = 0x000007FF ∧ immB 0x80000063 = 0xFFFFF000

/-- R16: sign extension ORs a mask of ones above the field when its top bit is set, and else pads with zeros. -/
def Obligations.SignExtensionOrsMask : Prop :=
  ∀ n : Nat, 0 < n → n ≤ 32 → ∀ f : BitVec n,
    sext f = if f.msb = true then f.setWidth 32 ||| (0xFFFFFFFF#32 <<< n) else f.setWidth 32

/-- On bytes the decoder reads four, the lowest address in bits 7:0, and leaves the rest; it refuses exactly what is shorter
than one instruction, by name (R100, R74). -/
def Obligations.DecodeReadsFourBytes : Prop :=
  (∀ (w : Word) (rest : List Byte),
    decode (byteOfWord w 0 :: byteOfWord w 1 :: byteOfWord w 2 :: byteOfWord w 3 :: rest) = .ok (decodeWord w, rest)) ∧
  (∀ bs : List Byte, (∃ n, decode bs = .error (.truncated n)) ↔ bs.length < 4)

-- 2. Memory.

/-- R72: MemRead tests alignment, then `MemValid`, and else returns the Word of the four bytes, the byte at `a+3` on
top; reading changes nothing, since it answers a Word and no state. The refusals and the byte order are the spec's own
decisions D6 to D8. -/
def Obligations.MemReadAnswers : Prop :=
  ∀ (s : State) (a : Word),
    (a.toNat % 4 ≠ 0 → memRead s a = .error .misaligned) ∧
    (a.toNat % 4 = 0 → memValid s.served a = false → memRead s a = .error .notServed) ∧
    (a.toNat % 4 = 0 → memValid s.served a = true →
      memRead s a = .ok (s.mem.readByte (a.toNat + 3) ++ s.mem.readByte (a.toNat + 2) ++ s.mem.readByte (a.toNat + 1) ++
        s.mem.readByte a.toNat))

/-- R73: MemWrite tests alignment, then `MemValid`, and else stores the four bytes, bits 7:0 at `a`; no other byte and
nothing else of the machine changes. The refusals and the byte order are the spec's own decisions D6 to D8. -/
def Obligations.MemWriteStoresFourBytes : Prop :=
  ∀ (s : State) (a v : Word), Memory.wf s.mem = true →
    (a.toNat % 4 ≠ 0 → memWrite s a v = .error .misaligned) ∧
    (a.toNat % 4 = 0 → memValid s.served a = false → memWrite s a v = .error .notServed) ∧
    (a.toNat % 4 = 0 → memValid s.served a = true → ∃ t, memWrite s a v = .ok t ∧
      t = { s with mem := t.mem, bus := s.bus ++ [.writeWord a v] } ∧
      t.mem.readByte a.toNat = v.extractLsb' 0 8 ∧ t.mem.readByte (a.toNat + 1) = v.extractLsb' 8 8 ∧
      t.mem.readByte (a.toNat + 2) = v.extractLsb' 16 8 ∧ t.mem.readByte (a.toNat + 3) = v.extractLsb' 24 8 ∧
      ∀ b : Nat, ¬ InWord a b → t.mem.readByte b = s.mem.readByte b)

/-- R75, R86: after a word is stored, an aligned read gives it at its address and the old word at every other aligned
address: two aligned words coincide or are disjoint. -/
def Obligations.AlignedWordsAreIndependent : Prop :=
  ∀ (s t : State) (a v c : Word), Memory.wf s.mem = true → memWrite s a v = .ok t → c.toNat % 4 = 0 →
    memRead t c = if c = a then .ok v else memRead s c

/-- The canonical form is canonical: two memories in it that read the same at every address are the same data (the
model's own form of R71's `mem`; log entry 4). -/
def Obligations.CanonicalMemoriesAreEqualWhenTheyReadEqual : Prop :=
  ∀ m n : Memory, Memory.wf m = true → Memory.wf n = true → (∀ a : Nat, m.readByte a = n.readByte a) → m = n

-- 3. The instructions. Each completes; the Executor's precondition on the default pc is R144's.

/-- R170: ADD, its encoding, its result modulo 2^32 and everything it leaves. -/
def Obligations.AddWritesWrappedSum : Prop :=
  (∀ w : Word, w &&& 0xFE00707F#32 = 0x00000033#32 → decodeWord w = .add (fieldRd w) (fieldRs1 w) (fieldRs2 w)) ∧
  decodeWord 0x002081B3 = .add 3 1 2 ∧
  ∀ (rd rs1 rs2 : Reg) (s : State), HasDefaultPc s → ∃ t, exec (.add rd rs1 rs2) s = .next t ∧
    t = { s with nxt := t.nxt } ∧ t.nxt.pc = s.cur.pc + 4#32 ∧
    ∀ r : Reg, readNxt t r = if r = 0#5 then 0#32 else if r = rd then readReg s rs1 + readReg s rs2 else readReg s r

/-- R171: SLT, its encoding, its signed comparison into a full Word and everything it leaves. -/
def Obligations.SltWritesSignedComparison : Prop :=
  (∀ w : Word, w &&& 0xFE00707F#32 = 0x00002033#32 → decodeWord w = .slt (fieldRd w) (fieldRs1 w) (fieldRs2 w)) ∧
  decodeWord 0x0020A1B3 = .slt 3 1 2 ∧
  ∀ (rd rs1 rs2 : Reg) (s : State), HasDefaultPc s → ∃ t, exec (.slt rd rs1 rs2) s = .next t ∧
    t = { s with nxt := t.nxt } ∧ t.nxt.pc = s.cur.pc + 4#32 ∧
    ∀ r : Reg, readNxt t r = if r = 0#5 then 0#32
      else if r = rd then (if (readReg s rs1).toInt < (readReg s rs2).toInt then 1#32 else 0#32) else readReg s r

/-- R180: ADDI, its encoding, its result modulo 2^32 and everything it leaves. -/
def Obligations.AddiWritesWrappedSum : Prop :=
  (∀ w : Word, w &&& 0x0000707F#32 = 0x00000013#32 → decodeWord w = .addi (fieldRd w) (fieldRs1 w) (immI w)) ∧
  decodeWord 0x00A00293 = .addi 5 0 10 ∧ decodeWord 0xFFF08093 = .addi 1 1 0xFFFFFFFF ∧
  ∀ (rd rs1 : Reg) (imm : Word) (s : State), HasDefaultPc s → ∃ t, exec (.addi rd rs1 imm) s = .next t ∧
    t = { s with nxt := t.nxt } ∧ t.nxt.pc = s.cur.pc + 4#32 ∧
    ∀ r : Reg, readNxt t r = if r = 0#5 then 0#32 else if r = rd then readReg s rs1 + imm else readReg s r

/-- R181, R117: SLLI, its encoding, the shift amount `imm AND 0x1F` that is `ir[24:20]`, its result and everything it
leaves; words that differ in bits 31:25 alone act the same (R121). That bits 31:25 are ignored is the spec's decision D10. -/
def Obligations.SlliShiftsByMaskedImmediate : Prop :=
  (∀ w : Word, w &&& 0x0000707F#32 = 0x00001013#32 → decodeWord w = .slli (fieldRd w) (fieldRs1 w) (immI w)) ∧
  decodeWord 0x00419213 = .slli 4 3 4 ∧ decodeWord 0x01F19213 = .slli 4 3 31 ∧
  (∀ w : Word, immI w &&& 0x1F#32 = (fieldRs2 w).setWidth 32) ∧
  (∀ (rd rs1 : Reg) (imm : Word) (s : State), HasDefaultPc s → ∃ t, exec (.slli rd rs1 imm) s = .next t ∧
    t = { s with nxt := t.nxt } ∧ t.nxt.pc = s.cur.pc + 4#32 ∧
    ∀ r : Reg, readNxt t r = if r = 0#5 then 0#32
      else if r = rd then readReg s rs1 <<< (imm &&& 0x1F#32).toNat else readReg s r) ∧
  (∀ (w v : Word) (s : State), w &&& 0x0000707F#32 = 0x00001013#32 → w &&& 0x01FFFFFF#32 = v &&& 0x01FFFFFF#32 →
    exec (decodeWord w) s = exec (decodeWord v) s)

/-- R190: SW, its encoding with any funct3, the word it stores, its two faults, which leave memory as it was and the refused
request on record, and everything it leaves. The address is
`x[rs1] + imm` modulo 2^32. The faults are the spec's own decisions D7 and D8, and the unexamined funct3 its decision D10
(R191). -/
def Obligations.SwStoresWord : Prop :=
  (∀ w : Word, w &&& 0x0000007F#32 = 0x00000023#32 → decodeWord w = .sw (fieldRs1 w) (fieldRs2 w) (immS w)) ∧
  decodeWord 0x00112023 = .sw 2 1 0 ∧ decodeWord 0x00110023 = .sw 2 1 0 ∧
  decodeWord 0xFE532E23 = .sw 6 5 0xFFFFFFFC ∧
  ∀ (rs1 rs2 : Reg) (imm : Word) (s : State),
    ((storeAddress s rs1 imm).toNat % 4 ≠ 0 →
      exec (.sw rs1 rs2 imm) s = .fault (.storeMisaligned (readReg s rs1 + imm)
        ⟨s.mem, s.served, s.bus ++ [.writeRefused (readReg s rs1 + imm) (readReg s rs2)]⟩)) ∧
    ((storeAddress s rs1 imm).toNat % 4 = 0 → memValid s.served (storeAddress s rs1 imm) = false →
      exec (.sw rs1 rs2 imm) s = .fault (.storeAccess (readReg s rs1 + imm)
        ⟨s.mem, s.served, s.bus ++ [.writeRefused (readReg s rs1 + imm) (readReg s rs2)]⟩)) ∧
    (HasDefaultPc s → Memory.wf s.mem = true → Serves s (storeAddress s rs1 imm) →
      ∃ t, exec (.sw rs1 rs2 imm) s = .next t ∧
        t = { s with nxt := t.nxt, mem := t.mem, bus := s.bus ++ [.writeWord (readReg s rs1 + imm) (readReg s rs2)] } ∧
        t.nxt.pc = s.cur.pc + 4#32 ∧ (∀ r : Reg, readNxt t r = if r = 0#5 then 0#32 else readReg s r) ∧
        memRead t (readReg s rs1 + imm) = .ok (readReg s rs2) ∧
        ∀ b : Nat, ¬ InWord (storeAddress s rs1 imm) b → t.mem.readByte b = s.mem.readByte b)

/-- R200: BNE, its encoding with any funct3, the target relative to its own address when the operands differ, the
Fetcher's default when they are equal, and everything it leaves. The unexamined funct3 is the spec's own decision D10
(R201). -/
def Obligations.BneBranchesOnInequality : Prop :=
  (∀ w : Word, w &&& 0x0000007F#32 = 0x00000063#32 → decodeWord w = .bne (fieldRs1 w) (fieldRs2 w) (immB w)) ∧
  decodeWord 0x00209463 = .bne 1 2 8 ∧ decodeWord 0x00208463 = .bne 1 2 8 ∧
  decodeWord 0xFE009CE3 = .bne 1 0 0xFFFFFFF8 ∧ decodeWord 0x80000063 = .bne 0 0 0xFFFFF000 ∧
  ∀ (rs1 rs2 : Reg) (imm : Word) (s : State), HasDefaultPc s → ∃ t, exec (.bne rs1 rs2 imm) s = .next t ∧
    t = { s with nxt := t.nxt } ∧
    t.nxt.pc = (if readReg s rs1 ≠ readReg s rs2 then s.cur.pc + imm else s.cur.pc + 4#32) ∧
    ∀ r : Reg, readNxt t r = if r = 0#5 then 0#32 else readReg s r

/-- R210: AUIPC, its encoding, its result from its own address, and everything it leaves. -/
def Obligations.AuipcAddsToOwnAddress : Prop :=
  (∀ w : Word, w &&& 0x0000007F#32 = 0x00000017#32 → decodeWord w = .auipc (fieldRd w) (immU w)) ∧
  decodeWord 0x12345297 = .auipc 5 0x12345000 ∧
  ∀ (rd : Reg) (imm : Word) (s : State), HasDefaultPc s → ∃ t, exec (.auipc rd imm) s = .next t ∧
    t = { s with nxt := t.nxt } ∧ t.nxt.pc = s.cur.pc + 4#32 ∧
    ∀ r : Reg, readNxt t r = if r = 0#5 then 0#32 else if r = rd then s.cur.pc + imm else readReg s r

/-- R220: JAL, its encoding, its link value, its target, both from its own address, and everything it leaves. -/
def Obligations.JalLinksAndJumps : Prop :=
  (∀ w : Word, w &&& 0x0000007F#32 = 0x0000006F#32 → decodeWord w = .jal (fieldRd w) (immJ w)) ∧
  decodeWord 0x008000EF = .jal 1 8 ∧ decodeWord 0xFFDFF06F = .jal 0 0xFFFFFFFC ∧
  decodeWord 0x001000EF = .jal 1 2048 ∧ decodeWord 0x800000EF = .jal 1 0xFFF00000 ∧
  ∀ (rd : Reg) (imm : Word) (s : State), ∃ t, exec (.jal rd imm) s = .next t ∧
    t = { s with nxt := t.nxt } ∧ t.nxt.pc = s.cur.pc + imm ∧
    ∀ r : Reg, readNxt t r = if r = 0#5 then 0#32 else if r = rd then s.cur.pc + 4#32 else readReg s r

/-- R230: HALT is the zero word; it clears the run flag, changes no register, advances the pc and emits nothing; and no
other word halts without a diagnostic. That the halting step is committed too is the spec's own decision D12. -/
def Obligations.HaltStopsWithoutDiagnostic : Prop :=
  (∀ w : Word, w &&& 0xFFFFFFFF#32 = 0x00000000#32 ↔ decodeWord w = .halt) ∧
  (∀ s : State, HasDefaultPc s → ∃ t, exec .halt s = .next t ∧ t = { s with nxt := t.nxt, run := false } ∧
    t.nxt.pc = s.cur.pc + 4#32 ∧ ∀ r : Reg, readNxt t r = if r = 0#5 then 0#32 else readReg s r) ∧
  (∀ s : State, Fetches s 0#32 → ∃ t, step s = .next t ∧ t.run = false ∧ t.diag = none ∧ t.cur.pc = s.cur.pc + 4#32 ∧
    t.mem = s.mem) ∧
  (∀ (s t : State) (ir : Word), Fetches s ir → step s = .next t → t.run = false → t.diag = none → ir = 0#32)

/-- R232, R233: a nonzero word of an unsupported opcode emits `diag(cur.pc, ir)`, clears the run flag, changes no
register and advances the pc. -/
def Obligations.UnsupportedOpcodeHaltsWithDiagnostic : Prop :=
  (∀ w : Word, w ≠ 0#32 → fieldOpcode w ≠ 0x33#7 → fieldOpcode w ≠ 0x13#7 → fieldOpcode w ≠ 0x23#7 → fieldOpcode w ≠ 0x63#7 →
    fieldOpcode w ≠ 0x17#7 → fieldOpcode w ≠ 0x6F#7 → decodeWord w = .unsupported w) ∧
  decodeWord 0xFFFFFFFF = .unsupported 0xFFFFFFFF ∧ decodeWord 0x00000080 = .unsupported 0x00000080 ∧
  ∀ (ir : Word) (s : State), HasDefaultPc s → ∃ t, exec (.unsupported ir) s = .next t ∧
    t = { s with nxt := t.nxt, run := false, diag := some ⟨s.cur.pc, ir⟩ } ∧ t.nxt.pc = s.cur.pc + 4#32 ∧
    ∀ r : Reg, readNxt t r = if r = 0#5 then 0#32 else readReg s r

/-- R234, R122: the reserved sub-functions of opcodes 0x33 and 0x13 are unsupported words, which halt with a diagnostic; under
the parameter's other value such a word would complete with nothing changed but the pc. That they halt is the spec's own
decision D9 (log entry 6). -/
def Obligations.ReservedSubfunctionsHalt : Prop :=
  (∀ w : Word, isReservedSubfunc w = true ↔
    (fieldOpcode w = 0x33#7 ∧ (fieldFunct7 w ≠ 0#7 ∨ fieldFunct3 w ∈ [1, 3, 4, 5, 6, 7])) ∨
    (fieldOpcode w = 0x13#7 ∧ fieldFunct3 w ∈ [2, 3, 4, 5, 6, 7])) ∧
  (∀ w : Word, isReservedSubfunc w = true → decodeWord w = .unsupported w) ∧
  decodeWord 0x402081B3 = .unsupported 0x402081B3 ∧ Config.reservedSubfunc = .halt ∧
  (∀ (w : Word) (s : State), isReservedSubfunc w = true → HasDefaultPc s → ∃ t, exec (.unsupported w) s = .next t ∧
    t = { s with nxt := t.nxt, run := false, diag := some ⟨s.cur.pc, w⟩ } ∧ t.nxt.pc = s.cur.pc + 4#32 ∧
    ∀ r : Reg, readNxt t r = if r = 0#5 then 0#32 else readReg s r) ∧
  (∀ (w : Word) (s : State), isReservedSubfunc w = true → HasDefaultPc s →
    ∃ t, executor (fun u => .next (unsupportedArm .nop w u)) s = .next t ∧ t = { s with nxt := t.nxt } ∧
    t.nxt.pc = s.cur.pc + 4#32 ∧ ∀ r : Reg, readNxt t r = if r = 0#5 then 0#32 else readReg s r)

-- 4. Frames over all instructions.

/-- R33, R152: what every instruction (ADD, SLT, ADDI, SLLI, SW, BNE, AUIPC, JAL, HALT, UNSUPPORTED) leaves unchanged when
it answers a next state: the current copy, every register but its destination and register 0, the pc but for BNE and
JAL, the run flag and the diagnostic but for a halt, and every byte of memory outside the word it stores. -/
def Obligations.EveryInstructionKeepsItsFrame : Prop :=
  ∀ (i : Instr) (s t : State), Memory.wf s.mem = true → exec i s = .next t →
    t.cur = s.cur ∧ t.served = s.served ∧ t.phase = s.phase ∧
    (∀ r : Reg, r ≠ 0#5 → destOf i ≠ some r → readNxt t r = readReg s r) ∧ readNxt t 0#5 = 0#32 ∧
    (transfersControl i = false → t.nxt.pc = s.nxt.pc) ∧
    (haltsMachine i = false → t.run = s.run ∧ t.diag = s.diag) ∧
    (storeOf s i = none → t.bus = s.bus ∧ ∀ b : Nat, t.mem.readByte b = s.mem.readByte b) ∧
    (∀ a v : Word, storeOf s i = some (a, v) → ∀ b : Nat, ¬ InWord a b → t.mem.readByte b = s.mem.readByte b)

/-- R33: which registers an instruction reads. Changing a register of the current state that the instruction does not name
as a source changes neither how it ends, nor its result, nor the pc, nor memory. -/
def Obligations.UnnamedSourcesDoNotMatter : Prop :=
  ∀ (i : Instr) (s : State) (x : Vector Word 32), (∀ r ∈ sourcesOf i, x[r.toNat]'r.isLt = readReg s r) →
    match exec i s, exec i { s with cur := ⟨s.cur.pc, x⟩ } with
    | .next t, .next u => t.nxt.pc = u.nxt.pc ∧ t.mem = u.mem ∧ t.bus = u.bus ∧ t.run = u.run ∧ t.diag = u.diag ∧
        ∀ r : Reg, destOf i = some r → readNxt t r = readNxt u r
    | .fault f, .fault g => f = g
    | _, _ => False

/-- R149: register 0 of the next state is zero on every path on which an instruction completes or halts, from every
state, whatever was written. -/
def Obligations.RegisterZeroIsForced : Prop :=
  ∀ (i : Instr) (s t : State), exec i s = .next t → readNxt t 0#5 = 0#32

/-- R39: a step never writes the current copy; no bit of the old next copy, of the last diagnostic or of the last requests
has any part in what a step leaves, and the new next copy is a function of the current copy and the fetched word (the
spec's own derivation from R141 and R146). -/
def Obligations.OldNextStateDoesNotMatter : Prop :=
  (∀ (s : State) (n : Arch) (d : Option Diag) (b : List Request),
    coreStep { s with nxt := n, diag := d, bus := b } = coreStep s) ∧
  (∀ s t : State, coreStep s = .next t → t.cur = s.cur) ∧
  (∀ (s u t v : State) (ir : Word), Fetches s ir → Fetches u ir → s.cur = u.cur → coreStep s = .next t →
    coreStep u = .next v → t.nxt = v.nxt)

/-- R153: how a step ends, what it leaves, the write it makes and its diagnostic are functions of the current copy, of the
word memory holds at its pc and of `MemValid`, whether the fetch succeeds or faults (the spec's own derivation from R140,
R72 and R73). -/
def Obligations.StepDependsOnCurrentWordAndMemValid : Prop :=
  ∀ s u : State, Accepts s → Accepts u → s.cur = u.cur → s.served = u.served →
    s.mem.wordAt s.cur.pc = u.mem.wordAt s.cur.pc →
    match coreStep s, coreStep u with
    | .next t, .next v => t.nxt = v.nxt ∧ t.run = v.run ∧ t.diag = v.diag ∧ t.bus = v.bus
    | .fault f, .fault g => f.code = g.code ∧ f.addr = g.addr ∧ f.left.bus = g.left.bus
    | _, _ => False

-- 5. The step and the cycle.

/-- R140, R154: when the four bytes at the pc decode to a well-formed instruction, an accepted step is the Fetcher's writes, then
`exec` of that instruction, and the cycle adds the commit after a next state and nothing after a fault. -/
def Obligations.StepRunsTheDecodedInstruction : Prop :=
  ∀ (s : State) (i : Instr) (rest : List Byte), Accepts s → Serves s s.cur.pc → i.wf = true →
    decode [s.mem.readByte s.cur.pc.toNat, s.mem.readByte (s.cur.pc.toNat + 1), s.mem.readByte (s.cur.pc.toNat + 2),
      s.mem.readByte (s.cur.pc.toNat + 3)] = .ok (i, rest) →
    coreStep s = exec i { s with
      nxt := ⟨s.cur.pc + 4#32, s.nxt.x⟩
      phase := .stepped
      diag := none
      bus := [.readWord s.cur.pc (s.mem.wordAt s.cur.pc)] } ∧
    step s = match coreStep s with
      | .next t => .next { t with cur := t.nxt, phase := .idle }
      | .fault f => .fault f
      | .refused r => .refused r

/-- R253, R78, R80, R259: an accepted step whose pc is misaligned, or aligned and not served, faults at its fetch and
nothing of it happens: memory is as before and the refused read is the only request; alignment is tested first. That they fault is the spec's own decision (D7, D8). -/
def Obligations.FetchFaultsByAddress : Prop :=
  ∀ s : State, Accepts s →
    (s.cur.pc.toNat % 4 ≠ 0 →
      step s = .fault (.fetchMisaligned s.cur.pc ⟨s.mem, s.served, [.readRefused s.cur.pc]⟩)) ∧
    (s.cur.pc.toNat % 4 = 0 → memValid s.served s.cur.pc = false →
      step s = .fault (.fetchAccess s.cur.pc ⟨s.mem, s.served, [.readRefused s.cur.pc]⟩))

/-- R250, R254, R255: a cycle faults exactly in the four cases of the list, with the address, memory as before and the requests
on record, and only SW raises a store fault. That the provider refuses such accesses is the spec's own decision (D7, D8). -/
def Obligations.FaultsAreExactlyTheListed : Prop :=
  ∀ (s : State) (f : Fault), step s = .fault f ↔ Accepts s ∧
    ((s.cur.pc.toNat % 4 ≠ 0 ∧ f = .fetchMisaligned s.cur.pc ⟨s.mem, s.served, [.readRefused s.cur.pc]⟩) ∨
     (s.cur.pc.toNat % 4 = 0 ∧ memValid s.served s.cur.pc = false ∧
       f = .fetchAccess s.cur.pc ⟨s.mem, s.served, [.readRefused s.cur.pc]⟩) ∨
     (∃ (ir : Word) (rs1 rs2 : Reg) (imm : Word), Fetches s ir ∧ decodeWord ir = .sw rs1 rs2 imm ∧
       (((storeAddress s rs1 imm).toNat % 4 ≠ 0 ∧ f = .storeMisaligned (storeAddress s rs1 imm) ⟨s.mem, s.served,
          [.readWord s.cur.pc ir, .writeRefused (storeAddress s rs1 imm) (readReg s rs2)]⟩) ∨
        ((storeAddress s rs1 imm).toNat % 4 = 0 ∧ memValid s.served (storeAddress s rs1 imm) = false ∧
          f = .storeAccess (storeAddress s rs1 imm) ⟨s.mem, s.served,
            [.readWord s.cur.pc ir, .writeRefused (storeAddress s rs1 imm) (readReg s rs2)]⟩))))

/-- R250, R256, R58: what every fault leaves: memory and `MemValid` as before the cycle; a fetch fault (codes 2 and 3)
the refused read of the pc, a store fault (codes 4 and 5) the fetch and then the refused write of the SW's data at the
recorded address. The record is the model's form of it (log entry 15). -/
def Obligations.FaultsLeaveMemoryAndTheRequests : Prop :=
  ∀ (s : State) (f : Fault), step s = .fault f →
    f.left.mem = s.mem ∧ f.left.served = s.served ∧ 2 ≤ f.code ∧ f.code ≤ 5 ∧
    (f.code ≤ 3 → f.addr = s.cur.pc ∧ f.left.bus = [.readRefused s.cur.pc]) ∧
    (4 ≤ f.code → ∃ ir v : Word, Fetches s ir ∧ storeOf s (decodeWord ir) = some (f.addr, v) ∧
      f.left.bus = [.readWord s.cur.pc ir, .writeRefused f.addr v])

/-- The cycle is refused exactly when the driver may not ask for it: at `run = 0`, or before the last step's commit. No
instruction is ever refused. These refusals are the model's reading of R42, R305, D11 and U14 (log entries 8 and 9). -/
def Obligations.OnlyTheDriverIsRefused : Prop :=
  ∀ (s : State) (r : Refusal), step s = .refused r ↔
    (s.run = false ∧ r = .halted) ∨ (s.run = true ∧ s.phase = .stepped ∧ r = .stepBeforeCommit)

/-- R255, R13: a fetched instruction that is no store always completes or halts: its cycle answers a next state. -/
def Obligations.FetchedNonStoresComplete : Prop :=
  ∀ (s : State) (ir : Word), Fetches s ir → storeOf s (decodeWord ir) = none → ∃ t, step s = .next t

/-- R36: the pc after a cycle, by instruction. -/
def Obligations.NextPcFollowsTheTable : Prop :=
  ∀ (s t : State) (ir : Word), Fetches s ir → step s = .next t → t.cur.pc = nextPc s (decodeWord ir)

/-- R37, R202: from a word-aligned pc, a cycle leads to a word-aligned pc or, by a BNE or JAL alone, to one that is 2
modulo 4; from an even pc it leads to an even pc. -/
def Obligations.OnlyTransfersMisalignThePc : Prop :=
  ∀ (s t : State) (ir : Word), Fetches s ir → step s = .next t →
    (s.cur.pc.toNat % 2 = 0 → t.cur.pc.toNat % 2 = 0) ∧
    (s.cur.pc.toNat % 4 = 0 → t.cur.pc.toNat % 4 = 0 ∨
      (t.cur.pc.toNat % 4 = 2 ∧ transfersControl (decodeWord ir) = true))

/-- R200, R220, R37: a transfer to a misaligned or unserved target completes and commits that target as the pc; the following
cycle faults at its fetch. -/
def Obligations.TransferTargetsAreTestedAtTheNextFetch : Prop :=
  ∀ (s : State) (ir : Word), Fetches s ir → transfersControl (decodeWord ir) = true →
    ∃ t, step s = .next t ∧ t.cur.pc = nextPc s (decodeWord ir) ∧
      ((nextPc s (decodeWord ir)).toNat % 4 = 2 → step t = .fault (.fetchMisaligned (nextPc s (decodeWord ir))
        ⟨s.mem, s.served, [.readRefused (nextPc s (decodeWord ir))]⟩)) ∧
      ((nextPc s (decodeWord ir)).toNat % 4 = 0 → memValid s.served (nextPc s (decodeWord ir)) = false →
        step t = .fault (.fetchAccess (nextPc s (decodeWord ir))
          ⟨s.mem, s.served, [.readRefused (nextPc s (decodeWord ir))]⟩))

/-- R42: RUNNING at first; a cycle ends HALTED exactly when it fetched the zero word or an unsupported word; HALTED is
terminal. -/
def Obligations.RunFlagFollowsTheStateMachine : Prop :=
  (∀ l : Launch, (State.launch l).run = true) ∧
  (∀ (s t : State) (ir : Word), Fetches s ir → step s = .next t →
    (t.run = false ↔ ir = 0#32 ∨ tableMnemonic ir = "UNSUPPORTED")) ∧
  (∀ s t : State, s.run = false → step s ≠ .next t ∧ coreStep s ≠ .next t)

/-- R55, R233: one diagnostic, of the pc and the word, in a cycle that halts with cause `Unsupported`, and none in any
other. The payload is the spec's own decision D13. -/
def Obligations.DiagnosticExactlyWhenUnsupported : Prop :=
  ∀ (s t : State) (ir : Word), Fetches s ir → step s = .next t →
    t.diag = if tableMnemonic ir = "UNSUPPORTED" then some ⟨s.cur.pc, ir⟩ else none

/-- R76, R87: the requests of a cycle: the fetch's read first, then SW's write and no other. -/
def Obligations.RequestsAreOneReadThenAtMostOneWrite : Prop :=
  ∀ (s t : State) (ir : Word), Fetches s ir → step s = .next t →
    t.bus = .readWord s.cur.pc ir :: (match storeOf s (decodeWord ir) with
      | some (a, v) => [.writeWord a v]
      | none => [])

/-- R71: memory starts as `MEM_INIT` and changes only through SW: a byte a cycle changes lies in the word an SW stores. That
no other party writes is the spec's own decision D17 (log entry 22). -/
def Obligations.OnlyStoresChangeMemory : Prop :=
  (∀ l : Launch, (State.launch l).mem = l.memInit) ∧
  (∀ (s t : State) (ir : Word), Memory.wf s.mem = true → Fetches s ir → step s = .next t →
    ∀ b : Nat, t.mem.readByte b ≠ s.mem.readByte b →
      ∃ (rs1 rs2 : Reg) (imm : Word), decodeWord ir = .sw rs1 rs2 imm ∧ InWord (storeAddress s rs1 imm) b)

/-- R88, R91, R92: the word an SW stores is what the very next fetch of its address returns; an SW to the address after
its own makes the next cycle fetch the stored word, and an SW over its own word still completes as fetched (R87). -/
def Obligations.StoredWordIsFetchedNext : Prop :=
  ∀ (s : State) (ir : Word) (rs1 rs2 : Reg) (imm : Word), Memory.wf s.mem = true → Fetches s ir →
    decodeWord ir = .sw rs1 rs2 imm → Serves s (storeAddress s rs1 imm) →
    ∃ t, step s = .next t ∧ t.cur.pc = s.cur.pc + 4#32 ∧ memRead t (storeAddress s rs1 imm) = .ok (readReg s rs2) ∧
      (storeAddress s rs1 imm = s.cur.pc + 4#32 → Fetches t (readReg s rs2))

/-- R40: commit copies both the pc and the registers and changes nothing else; only a commit changes the current copy; it is
accepted after every step that completed or halted. That it also follows the halting step is the spec's own decision D12. -/
def Obligations.CommitCopiesNextIntoCurrent : Prop :=
  (∀ s : State, s.phase = .stepped → commit s = .next { s with cur := s.nxt, phase := .idle }) ∧
  (∀ s t : State, coreStep s = .next t → t.cur = s.cur ∧ commit t = .next { t with cur := t.nxt, phase := .idle })

/-- A commit no step precedes is refused, after a reset (R53) and after a commit (the model's reading of U14 and D19; log
entry 9). -/
def Obligations.CommitNeedsAStep : Prop :=
  (∀ l : Launch, commit (State.launch l) = .refused .commitBeforeStep) ∧
  (∀ s t : State, commit s = .next t → commit t = .refused .commitBeforeStep)

-- 6. Reset, launch, invariants, runs.

/-- R57: every piece of state after a reset with any values of the open parameters. The table is the spec's own decision D5
but for `run`. -/
def Obligations.LaunchSetsTheResetTable : Prop :=
  ∀ l : Launch, (State.launch l).run = true ∧ (State.launch l).cur.pc = l.resetPc ∧ readReg (State.launch l) 0#5 = 0#32 ∧
    (∀ k : Fin 31, (State.launch l).cur.x[k.val + 1] = l.initRegs[k.val]) ∧
    (State.launch l).mem = l.memInit ∧ (State.launch l).nxt = l.nxt ∧ (State.launch l).served = l.served ∧
    (State.launch l).phase = .idle ∧ (State.launch l).diag = none

/-- State.reset is one launch: the spec's `run = 1` and `x0 = 0`, and the model's choices of log entries 1 to 5 for what the
spec leaves open: pc 0, registers 0, next copy 0, nothing listed in memory, every word served. -/
def Obligations.ResetTakesTheLoggedValues : Prop :=
  State.reset.run = true ∧ State.reset.cur.pc = 0#32 ∧ (∀ r : Reg, readReg State.reset r = 0#32) ∧
  State.reset.nxt.pc = 0#32 ∧ (∀ r : Reg, readNxt State.reset r = 0#32) ∧ State.reset.phase = .idle ∧
  (∀ a : Nat, State.reset.mem.readByte a = 0#8) ∧ (∀ a : Word, a.toNat % 4 = 0 → Serves State.reset a)

/-- R56, R292: the reset input gives the reset table with memory untouched, between cycles and after a halt. That it keeps
`MemValid` too, whatever the launch names, is the model's choice (log entry 9). -/
def Obligations.ResetInputKeepsMemory : Prop :=
  ∀ (l : Launch) (s : State), s.run = false ∨ s.phase = .idle →
    resetInput l s = .next { State.launch l with mem := s.mem, served := s.served }

/-- R56, R256, R292: reset after a fault, the only way out of it, gives the reset table with memory as it was before the
faulting cycle; from canonical memory it starts in the invariant. That it keeps `MemValid` is the model's choice (log
entry 9). -/
def Obligations.ResetAfterAFaultKeepsMemory : Prop :=
  ∀ (l : Launch) (s : State) (f : Fault), step s = .fault f →
    resetAfterFault l f = { State.launch l with mem := s.mem, served := s.served } ∧
    (Memory.wf s.mem = true → Inv (resetAfterFault l f))

/-- R295: a launch whose start address is served and whose memory holds a program meets the launch premises for that
program, and one whose memory is in canonical form starts in the invariant. -/
def Obligations.LaunchMeetsItsPremises : Prop :=
  ∀ (l : Launch) (p : Image),
    (l.resetPc.toNat % 4 = 0 → memValid l.served l.resetPc = true → HoldsImage p l.memInit →
      Launched l p (State.launch l)) ∧
    (Memory.wf l.memInit = true → Inv (State.launch l))

/-- R293, R295 `L-image`: the loader's placing of a program at distinct aligned addresses, in any canonical memory, puts
every word at its address and leaves every other byte; memory stays canonical. -/
def Obligations.LoadedImagesAreHeld : Prop :=
  ∀ (m : Memory) (p : Image), Memory.wf m = true → (∀ q ∈ p, q.1.toNat % 4 = 0) → (p.map Prod.fst).Nodup →
    HoldsImage p (m.loadImage p) ∧ Memory.wf (m.loadImage p) = true ∧
    ∀ b : Nat, (∀ q ∈ p, ¬ InWord q.1 b) → (m.loadImage p).readByte b = m.readByte b

/-- R291, R295: from the launch premises the first step fetches the program's word at `RESET_PC`. -/
def Obligations.FirstFetchIsTheWordAtResetPc : Prop :=
  ∀ (l : Launch) (p : Image) (s : State) (w : Word), Launched l p s → (l.resetPc, w) ∈ p → Fetches s w

/-- The invariant holds at State.reset (R32, R57). -/
def Obligations.ResetMeetsTheInvariant : Prop := Inv State.reset

/-- Every cycle keeps the invariant: register 0 reads zero in the current copy (R32), memory keeps its canonical form, no
commit is owed (R305), and a diagnostic is out only when the machine has halted (R55). -/
def Obligations.EveryCycleKeepsTheInvariant : Prop :=
  ∀ s t : State, Inv s → step s = .next t → Inv t

/-- Every run of any length from a state in the invariant stays in it, ends with the two copies equal, and keeps `MemValid`
(R80, R299). -/
def Obligations.EveryRunKeepsTheInvariant : Prop :=
  ∀ (k : Nat) (s t : State), Inv s → Host.Core.run Sys2Proof.core k s = .next t →
    Inv t ∧ t.served = s.served ∧ (0 < k → t.nxt = t.cur)

/-- R298, R262: a cycle that halts leaves the registers and memory as they were, the pc after the halting word, the run
ended, and the cause readable: `Sentinel` for the zero word, else `Unsupported` with the word. -/
def Obligations.HaltLeavesAPreciseState : Prop :=
  ∀ (s t : State) (ir : Word), Inv s → Fetches s ir → step s = .next t → t.run = false →
    t.cur.x = s.cur.x ∧ t.cur.pc = s.cur.pc + 4#32 ∧ t.mem = s.mem ∧ RunEnded t ∧
    haltCause t = some (if ir = 0#32 then .sentinel else .unsupported ir)

/-- R231, R263: after a run has ended no further step answers a state. That the request is refused, by the name halted, is the
model's reading of "no further step is performed" (log entry 8). -/
def Obligations.EndedRunsStayEnded : Prop :=
  ∀ (k : Nat) (s : State), RunEnded s → Host.Core.run Sys2Proof.core (k + 1) s = .refused .halted

/-- R299, R200, R220: `JAL x0, 0`, and a BNE with offset 0 and unequal operands, repeat for ever: a run of any length is still
RUNNING, at the same pc, with the same registers and memory. -/
def Obligations.SelfLoopsNeverHalt : Prop :=
  ∀ (s : State) (ir : Word), Inv s → Fetches s ir →
    (ir = 0x0000006F#32 ∨ ∃ rs1 rs2 : Reg, decodeWord ir = .bne rs1 rs2 0#32 ∧ readReg s rs1 ≠ readReg s rs2) →
    ∀ k : Nat, ∃ t, Host.Core.run Sys2Proof.core k s = .next t ∧ t.run = true ∧ t.cur = s.cur ∧ t.mem = s.mem
end

