-- ==== Sys2Proof/Laws/State.lean ====
section
/-!
SUPPORT. One lemma per field for each named update of State, so that no proof unfolds a record update, and the register
file's reads after writes.
-/

namespace Sys2Proof.Machine

-- writeReg
@[simp] theorem writeReg_cur (s : State) (r : Reg) (v : Word) : (writeReg s r v).cur = s.cur := rfl
@[simp] theorem writeReg_nxt_pc (s : State) (r : Reg) (v : Word) : (writeReg s r v).nxt.pc = s.nxt.pc := rfl
@[simp] theorem writeReg_run (s : State) (r : Reg) (v : Word) : (writeReg s r v).run = s.run := rfl
@[simp] theorem writeReg_mem (s : State) (r : Reg) (v : Word) : (writeReg s r v).mem = s.mem := rfl
@[simp] theorem writeReg_served (s : State) (r : Reg) (v : Word) : (writeReg s r v).served = s.served := rfl
@[simp] theorem writeReg_phase (s : State) (r : Reg) (v : Word) : (writeReg s r v).phase = s.phase := rfl
@[simp] theorem writeReg_diag (s : State) (r : Reg) (v : Word) : (writeReg s r v).diag = s.diag := rfl
@[simp] theorem writeReg_bus (s : State) (r : Reg) (v : Word) : (writeReg s r v).bus = s.bus := rfl

-- writePc
@[simp] theorem writePc_cur (s : State) (t : Word) : (writePc s t).cur = s.cur := rfl
@[simp] theorem writePc_nxt_pc (s : State) (t : Word) : (writePc s t).nxt.pc = t := rfl
@[simp] theorem writePc_nxt_x (s : State) (t : Word) : (writePc s t).nxt.x = s.nxt.x := rfl
@[simp] theorem writePc_run (s : State) (t : Word) : (writePc s t).run = s.run := rfl
@[simp] theorem writePc_mem (s : State) (t : Word) : (writePc s t).mem = s.mem := rfl
@[simp] theorem writePc_served (s : State) (t : Word) : (writePc s t).served = s.served := rfl
@[simp] theorem writePc_phase (s : State) (t : Word) : (writePc s t).phase = s.phase := rfl
@[simp] theorem writePc_diag (s : State) (t : Word) : (writePc s t).diag = s.diag := rfl
@[simp] theorem writePc_bus (s : State) (t : Word) : (writePc s t).bus = s.bus := rfl

-- copyRegs
@[simp] theorem copyRegs_cur (s : State) : (copyRegs s).cur = s.cur := rfl
@[simp] theorem copyRegs_nxt_pc (s : State) : (copyRegs s).nxt.pc = s.nxt.pc := rfl
@[simp] theorem copyRegs_nxt_x (s : State) : (copyRegs s).nxt.x = s.cur.x := rfl
@[simp] theorem copyRegs_run (s : State) : (copyRegs s).run = s.run := rfl
@[simp] theorem copyRegs_mem (s : State) : (copyRegs s).mem = s.mem := rfl
@[simp] theorem copyRegs_served (s : State) : (copyRegs s).served = s.served := rfl
@[simp] theorem copyRegs_phase (s : State) : (copyRegs s).phase = s.phase := rfl
@[simp] theorem copyRegs_diag (s : State) : (copyRegs s).diag = s.diag := rfl
@[simp] theorem copyRegs_bus (s : State) : (copyRegs s).bus = s.bus := rfl

-- forceZero
@[simp] theorem forceZero_cur (s : State) : (forceZero s).cur = s.cur := rfl
@[simp] theorem forceZero_nxt_pc (s : State) : (forceZero s).nxt.pc = s.nxt.pc := rfl
@[simp] theorem forceZero_run (s : State) : (forceZero s).run = s.run := rfl
@[simp] theorem forceZero_mem (s : State) : (forceZero s).mem = s.mem := rfl
@[simp] theorem forceZero_served (s : State) : (forceZero s).served = s.served := rfl
@[simp] theorem forceZero_phase (s : State) : (forceZero s).phase = s.phase := rfl
@[simp] theorem forceZero_diag (s : State) : (forceZero s).diag = s.diag := rfl
@[simp] theorem forceZero_bus (s : State) : (forceZero s).bus = s.bus := rfl

-- takeHalt
@[simp] theorem takeHalt_cur (c : HaltCause) (s : State) : (takeHalt c s).cur = s.cur := by cases c <;> rfl
@[simp] theorem takeHalt_nxt (c : HaltCause) (s : State) : (takeHalt c s).nxt = s.nxt := by cases c <;> rfl
@[simp] theorem takeHalt_run (c : HaltCause) (s : State) : (takeHalt c s).run = false := by cases c <;> rfl
@[simp] theorem takeHalt_mem (c : HaltCause) (s : State) : (takeHalt c s).mem = s.mem := by cases c <;> rfl
@[simp] theorem takeHalt_served (c : HaltCause) (s : State) : (takeHalt c s).served = s.served := by cases c <;> rfl
@[simp] theorem takeHalt_phase (c : HaltCause) (s : State) : (takeHalt c s).phase = s.phase := by cases c <;> rfl
@[simp] theorem takeHalt_bus (c : HaltCause) (s : State) : (takeHalt c s).bus = s.bus := by cases c <;> rfl
@[simp] theorem takeHalt_sentinel_diag (s : State) : (takeHalt .sentinel s).diag = s.diag := rfl
@[simp] theorem takeHalt_unsupported_diag (ir : Word) (s : State) :
    (takeHalt (.unsupported ir) s).diag = some ⟨s.cur.pc, ir⟩ := rfl

-- fetched
@[simp] theorem fetched_cur (s : State) (ir : Word) : (fetched s ir).cur = s.cur := rfl
@[simp] theorem fetched_nxt_pc (s : State) (ir : Word) : (fetched s ir).nxt.pc = s.cur.pc + 4#32 := rfl
@[simp] theorem fetched_nxt_x (s : State) (ir : Word) : (fetched s ir).nxt.x = s.nxt.x := rfl
@[simp] theorem fetched_run (s : State) (ir : Word) : (fetched s ir).run = s.run := rfl
@[simp] theorem fetched_mem (s : State) (ir : Word) : (fetched s ir).mem = s.mem := rfl
@[simp] theorem fetched_served (s : State) (ir : Word) : (fetched s ir).served = s.served := rfl
@[simp] theorem fetched_phase (s : State) (ir : Word) : (fetched s ir).phase = .stepped := rfl
@[simp] theorem fetched_diag (s : State) (ir : Word) : (fetched s ir).diag = none := rfl
@[simp] theorem fetched_bus (s : State) (ir : Word) : (fetched s ir).bus = [.readWord s.cur.pc ir] := rfl

-- what a fault leaves
@[simp] theorem aftermath_mem (s : State) (b : List Request) : (aftermath s b).mem = s.mem := rfl
@[simp] theorem aftermath_served (s : State) (b : List Request) : (aftermath s b).served = s.served := rfl
@[simp] theorem aftermath_bus (s : State) (b : List Request) : (aftermath s b).bus = b := rfl
@[simp] theorem refusedWrite_mem (s : State) (a v : Word) : (refusedWrite s a v).mem = s.mem := rfl
@[simp] theorem refusedWrite_served (s : State) (a v : Word) : (refusedWrite s a v).served = s.served := rfl
@[simp] theorem refusedWrite_bus (s : State) (a v : Word) : (refusedWrite s a v).bus = s.bus ++ [.writeRefused a v] := rfl
@[simp] theorem refusedWrite_copyRegs (s : State) (a v : Word) : refusedWrite (copyRegs s) a v = refusedWrite s a v := rfl

-- resetWith
@[simp] theorem resetWith_cur (l : Launch) (m : Memory) (r : List Region) : (resetWith l m r).cur = ⟨l.resetPc, l.regs⟩ := rfl
@[simp] theorem resetWith_nxt (l : Launch) (m : Memory) (r : List Region) : (resetWith l m r).nxt = l.nxt := rfl
@[simp] theorem resetWith_run (l : Launch) (m : Memory) (r : List Region) : (resetWith l m r).run = true := rfl
@[simp] theorem resetWith_mem (l : Launch) (m : Memory) (r : List Region) : (resetWith l m r).mem = m := rfl
@[simp] theorem resetWith_served (l : Launch) (m : Memory) (r : List Region) : (resetWith l m r).served = r := rfl
@[simp] theorem resetWith_phase (l : Launch) (m : Memory) (r : List Region) : (resetWith l m r).phase = .idle := rfl
@[simp] theorem resetWith_diag (l : Launch) (m : Memory) (r : List Region) : (resetWith l m r).diag = none := rfl
@[simp] theorem resetWith_bus (l : Launch) (m : Memory) (r : List Region) : (resetWith l m r).bus = [] := rfl

-- reading registers
/-- Operands come from the current state, which the register copy does not touch. -/
@[simp] theorem readReg_copyRegs (s : State) (r : Reg) : readReg (copyRegs s) r = readReg s r := rfl

@[simp] theorem readReg_fetched (s : State) (ir : Word) (r : Reg) : readReg (fetched s ir) r = readReg s r := rfl

-- operand forms, which depend on the current state alone
@[simp] theorem storeAddress_copyRegs (s : State) (rs1 : Reg) (imm : Word) :
    storeAddress (copyRegs s) rs1 imm = storeAddress s rs1 imm := rfl
@[simp] theorem storeAddress_fetched (s : State) (ir : Word) (rs1 : Reg) (imm : Word) :
    storeAddress (fetched s ir) rs1 imm = storeAddress s rs1 imm := rfl
@[simp] theorem pcRelative_copyRegs (s : State) (imm : Word) : pcRelative (copyRegs s) imm = pcRelative s imm := rfl
@[simp] theorem pcRelative_fetched (s : State) (ir imm : Word) : pcRelative (fetched s ir) imm = pcRelative s imm := rfl
@[simp] theorem linkValue_copyRegs (s : State) : linkValue (copyRegs s) = linkValue s := rfl
@[simp] theorem linkValue_fetched (s : State) (ir : Word) : linkValue (fetched s ir) = linkValue s := rfl
@[simp] theorem checkAccess_copyRegs (s : State) (a : Word) : checkAccess (copyRegs s) a = checkAccess s a := rfl
@[simp] theorem checkAccess_fetched (s : State) (ir a : Word) : checkAccess (fetched s ir) a = checkAccess s a := rfl

/-- After the register copy the next state holds the current registers (R146). -/
@[simp] theorem readNxt_copyRegs (s : State) (r : Reg) : readNxt (copyRegs s) r = readReg s r := rfl

@[simp] theorem readNxt_writePc (s : State) (t : Word) (r : Reg) : readNxt (writePc s t) r = readNxt s r := rfl

@[simp] theorem readNxt_takeHalt (c : HaltCause) (s : State) (r : Reg) : readNxt (takeHalt c s) r = readNxt s r := by
  cases c <;> rfl

/-- A register write changes that register of the next state and no other. -/
@[simp] theorem readNxt_writeReg (s : State) (r q : Reg) (v : Word) :
    readNxt (writeReg s r v) q = if q = r then v else readNxt s q := by
  by_cases h : q = r
  · subst h; simp [readNxt, writeReg]
  · have : r.toNat ≠ q.toNat := fun e => h (BitVec.eq_of_toNat_eq e).symm
    simp [readNxt, writeReg, h, this]

/-- The last action of the Executor leaves register 0 zero and the others alone (R149). -/
@[simp] theorem readNxt_forceZero (s : State) (q : Reg) :
    readNxt (forceZero s) q = if q = 0#5 then 0#32 else readNxt s q := readNxt_writeReg s 0#5 q 0#32

/-- Two register files that read the same at every index are equal. -/
theorem regs_ext {x y : Vector Word 32} (h : ∀ r : Reg, x[r.toNat]'r.isLt = y[r.toNat]'r.isLt) : x = y := by
  ext i hi
  have := h (BitVec.ofNat 5 i)
  simp only [BitVec.toNat_ofNat, show i % 2 ^ 5 = i from Nat.mod_eq_of_lt hi] at this
  rw [this]

end Sys2Proof.Machine
end

