-- ==== Sys2Proof/Laws/Mem.lean ====
section
/-!
SUPPORT. The laws of memory: a read after a write, the canonical form kept by every operation, and what MemRead and
MemWrite answer.
-/

namespace Sys2Proof.Machine

@[simp] theorem Memory.readByte_nil (a : Nat) : Memory.readByte [] a = Config.unlistedByte := rfl

theorem Memory.readByte_cons (b : Nat) (u : Byte) (m : Memory) (a : Nat) :
    Memory.readByte ((b, u) :: m) a = if a = b then u else Memory.readByte m a := rfl

/-- Nothing is listed at or below a bound that every listed address exceeds. -/
theorem Memory.readByte_above {a : Nat} : ∀ {m : Memory}, Memory.above a m = true → ∀ {b : Nat}, b ≤ a →
    Memory.readByte m b = Config.unlistedByte
  | [], _, _, _ => rfl
  | (c, u) :: m, h, b, hb => by
    simp only [Memory.above, List.all_cons, Bool.and_eq_true, decide_eq_true_eq] at h
    rw [Memory.readByte_cons, if_neg (by omega)]
    exact Memory.readByte_above (m := m) h.2 hb

theorem Memory.above_mono {a b : Nat} (hab : a ≤ b) {m : Memory} (h : Memory.above b m = true) :
    Memory.above a m = true := by
  simp only [Memory.above, List.all_eq_true, decide_eq_true_eq] at h ⊢
  exact fun c hc => Nat.lt_of_le_of_lt hab (h c hc)

/-- The canonical form of a nonempty memory, part by part. -/
theorem Memory.wf_cons (a : Nat) (v : Byte) (m : Memory) :
    Memory.wf ((a, v) :: m) = true ↔
      a < 4294967296 ∧ v ≠ Config.unlistedByte ∧ Memory.above a m = true ∧ Memory.wf m = true := by
  simp [Memory.wf, and_assoc]

theorem Memory.consByte_wf {a : Nat} {v : Byte} {m : Memory} (ha : a < 4294967296) (hm : Memory.wf m = true)
    (hab : Memory.above a m = true) : Memory.wf (Memory.consByte a v m) = true := by
  unfold Memory.consByte
  split
  · exact hm
  · exact (Memory.wf_cons a v m).2 ⟨ha, ‹_›, hab, hm⟩

theorem Memory.consByte_above {a c : Nat} {v : Byte} {m : Memory} (hca : c < a) (hab : Memory.above c m = true) :
    Memory.above c (Memory.consByte a v m) = true := by
  unfold Memory.consByte
  split
  · exact hab
  · simpa [Memory.above, hca] using hab

theorem Memory.readByte_consByte {a : Nat} {v : Byte} {m : Memory} (hab : Memory.above a m = true) (b : Nat) :
    Memory.readByte (Memory.consByte a v m) b = if b = a then v else Memory.readByte m b := by
  unfold Memory.consByte
  split
  · rename_i hv
    split
    · rw [Memory.readByte_above hab (by omega), hv]
    · rfl
  · exact Memory.readByte_cons a v m b

theorem Memory.writeByte_above {c : Nat} : ∀ {m : Memory} {a : Nat} {v : Byte}, c < a → Memory.above c m = true →
    Memory.above c (Memory.writeByte m a v) = true
  | [], _, _, hca, h => Memory.consByte_above hca h
  | (b, u) :: m, a, v, hca, h => by
    have h' : c < b ∧ Memory.above c m = true := by simpa [Memory.above] using h
    unfold Memory.writeByte
    split
    · exact Memory.consByte_above hca h
    · split
      · exact Memory.consByte_above hca h'.2
      · have := Memory.writeByte_above (m := m) (v := v) hca h'.2
        simpa [Memory.above, h'.1] using this

/-- Writing a byte keeps the canonical form. -/
theorem Memory.writeByte_wf : ∀ {m : Memory} {a : Nat} {v : Byte}, a < 4294967296 → Memory.wf m = true →
    Memory.wf (Memory.writeByte m a v) = true
  | [], _, _, ha, h => Memory.consByte_wf ha h rfl
  | (b, u) :: m, a, v, ha, h => by
    obtain ⟨hb, hu, hab, hm⟩ := (Memory.wf_cons b u m).1 h
    unfold Memory.writeByte
    split
    · rename_i hlt
      exact Memory.consByte_wf ha h
        (by simpa [Memory.above, hlt] using Memory.above_mono (Nat.le_of_lt hlt) hab)
    · split
      · rename_i heq
        exact Memory.consByte_wf ha hm (heq ▸ hab)
      · exact (Memory.wf_cons _ _ _).2
          ⟨hb, hu, Memory.writeByte_above (by omega) hab, Memory.writeByte_wf ha hm⟩

/-- A read after a write: the value written at its address, and every other byte as before. -/
theorem Memory.readByte_writeByte : ∀ {m : Memory} {a : Nat} {v : Byte}, Memory.wf m = true → ∀ b : Nat,
    Memory.readByte (Memory.writeByte m a v) b = if b = a then v else Memory.readByte m b
  | [], a, v, _, b => Memory.readByte_consByte rfl b
  | (c, u) :: m, a, v, h, b => by
    obtain ⟨_, _, hab, hm⟩ := (Memory.wf_cons c u m).1 h
    unfold Memory.writeByte
    split
    · rename_i hlt
      exact Memory.readByte_consByte
        (by simpa [Memory.above, hlt] using Memory.above_mono (Nat.le_of_lt hlt) hab) b
    · split
      · rename_i heq
        subst heq
        rw [Memory.readByte_consByte hab, Memory.readByte_cons]
        split <;> rfl
      · rw [Memory.readByte_cons, Memory.readByte_cons, Memory.readByte_writeByte hm]
        split <;> split <;> first | rfl | omega

/-- The four byte addresses of a word are distinct and inside the address space. -/
theorem wordAddresses (a : Word) : a.toNat < 4294967296 ∧ (a + 1#32).toNat < 4294967296 ∧ (a + 2#32).toNat < 4294967296 ∧
    (a + 3#32).toNat < 4294967296 :=
  ⟨a.isLt, (a + 1#32).isLt, (a + 2#32).isLt, (a + 3#32).isLt⟩

/-- An aligned word does not wrap (R81). -/
theorem aligned_addresses {a : Word} (h : a.toNat % 4 = 0) :
    (a + 1#32).toNat = a.toNat + 1 ∧ (a + 2#32).toNat = a.toNat + 2 ∧ (a + 3#32).toNat = a.toNat + 3 := by
  have := a.isLt
  refine ⟨?_, ?_, ?_⟩ <;> rw [BitVec.toNat_add_of_lt] <;> first | rfl | (simp; omega)

/-- Storing a word keeps the canonical form. -/
theorem Memory.setWord_wf {m : Memory} (a v : Word) (h : Memory.wf m = true) : Memory.wf (m.setWord a v) = true := by
  obtain ⟨h0, h1, h2, h3⟩ := wordAddresses a
  exact writeByte_wf h3 (writeByte_wf h2 (writeByte_wf h1 (writeByte_wf h0 h)))

@[simp] theorem Memory.loadImage_nil (m : Memory) : m.loadImage [] = m := rfl
@[simp] theorem Memory.loadImage_cons (m : Memory) (q : Word × Word) (p : Image) :
    m.loadImage (q :: p) = (m.loadImage p).setWord q.1 q.2 := rfl

/-- Placing an image keeps the canonical form. -/
theorem Memory.loadImage_wf {m : Memory} (h : Memory.wf m = true) : ∀ p : Image, Memory.wf (m.loadImage p) = true
  | [] => h
  | q :: p => Memory.setWord_wf q.1 q.2 (Memory.loadImage_wf h p)

/-- Every byte after a word is stored at an aligned address: the word's byte at each of its four addresses (R73, R74), and
the old byte elsewhere. -/
theorem Memory.readByte_setWord {m : Memory} {a v : Word} (h : Memory.wf m = true) (ha : a.toNat % 4 = 0) (b : Nat) :
    Memory.readByte (m.setWord a v) b =
      if b = a.toNat + 3 then byteOfWord v 3 else if b = a.toNat + 2 then byteOfWord v 2
      else if b = a.toNat + 1 then byteOfWord v 1 else if b = a.toNat then byteOfWord v 0
      else Memory.readByte m b := by
  obtain ⟨h0, h1, h2, _⟩ := wordAddresses a
  obtain ⟨e1, e2, e3⟩ := aligned_addresses ha
  have w0 := writeByte_wf (v := byteOfWord v 0) h0 h
  have w1 := writeByte_wf (v := byteOfWord v 1) h1 w0
  have w2 := writeByte_wf (v := byteOfWord v 2) h2 w1
  rw [Memory.setWord, readByte_writeByte w2, readByte_writeByte w1, readByte_writeByte w0, readByte_writeByte h, e1, e2, e3]

/-- The bits of a word, byte by byte (R74). -/
theorem getLsbD_wordOfBytes (b0 b1 b2 b3 : Byte) (i : Nat) : (wordOfBytes b0 b1 b2 b3).getLsbD i =
    if i < 8 then b0.getLsbD i else if i < 16 then b1.getLsbD (i - 8) else if i < 24 then b2.getLsbD (i - 16)
    else b3.getLsbD (i - 24) := by
  show BitVec.getLsbD (w := 8 + 8 + 8 + 8) (b3 ++ b2 ++ b1 ++ b0) i = _
  simp only [BitVec.getLsbD_append, Nat.sub_sub]
  (repeat' split) <;> first | rfl | omega

/-- A word is its four bytes (R74). -/
theorem wordOfBytes_byteOfWord (v : Word) :
    wordOfBytes (byteOfWord v 0) (byteOfWord v 1) (byteOfWord v 2) (byteOfWord v 3) = v := by
  apply BitVec.eq_of_getLsbD_eq
  intro i hi
  rw [getLsbD_wordOfBytes]
  simp only [byteOfWord, BitVec.getLsbD_extractLsb']
  (repeat' split) <;> rw [decide_eq_true (by omega), Bool.true_and] <;> congr 1 <;> omega

/-- What the provider's test answers (R72, R73): alignment first, then `MemValid`. -/
theorem checkAccess_ok {s : State} {a : Word} : checkAccess s a = .ok () ↔ Serves s a := by
  unfold checkAccess isAligned Serves
  by_cases h : a.toNat % 4 = 0 <;> by_cases h' : memValid s.served a = true <;> simp [h, h']

theorem checkAccess_misaligned {s : State} {a : Word} :
    checkAccess s a = .error .misaligned ↔ a.toNat % 4 ≠ 0 := by
  unfold checkAccess isAligned
  by_cases h : a.toNat % 4 = 0 <;> by_cases h' : memValid s.served a = true <;> simp [h, h']

theorem checkAccess_notServed {s : State} {a : Word} :
    checkAccess s a = .error .notServed ↔ a.toNat % 4 = 0 ∧ memValid s.served a = false := by
  unfold checkAccess isAligned
  by_cases h : a.toNat % 4 = 0 <;> by_cases h' : memValid s.served a = true <;> simp [h, h']

/-- The test depends on the served regions alone. -/
theorem checkAccess_congr {s t : State} (h : s.served = t.served) (a : Word) : checkAccess s a = checkAccess t a := by
  unfold checkAccess; rw [h]

/-- Everything MemRead can do: answer the stored word of a served address, or an error of the provider's test. -/
theorem memRead_ok {s : State} {a w : Word} : memRead s a = .ok w ↔ Serves s a ∧ s.mem.wordAt a = w := by
  unfold memRead
  rw [← checkAccess_ok]
  cases h : checkAccess s a <;> simp

theorem memRead_error {s : State} {a : Word} {e : AccessError} : memRead s a = .error e ↔ checkAccess s a = .error e := by
  unfold memRead
  cases checkAccess s a <;> simp

/-- Everything MemWrite can do: store the word at a served address and record the request, or an error. -/
theorem memWrite_ok {s t : State} {a v : Word} : memWrite s a v = .ok t ↔
    Serves s a ∧ t = { s with mem := s.mem.setWord a v, bus := s.bus ++ [.writeWord a v] } := by
  unfold memWrite
  rw [← checkAccess_ok]
  cases h : checkAccess s a <;> simp [eq_comm]

theorem memWrite_error {s : State} {a v : Word} {e : AccessError} :
    memWrite s a v = .error e ↔ checkAccess s a = .error e := by
  unfold memWrite
  cases checkAccess s a <;> simp

end Sys2Proof.Machine
end

