-- ==== Sys2Proof/Laws/Decode.lean ====
section
/-!
SUPPORT. The fields of an encoded word (R101, R103 to R108), each format's bits said once, and the immediate read back from
the word it was placed in.
-/

namespace Sys2Proof

/-- The bits of a word of the register-register format. -/
theorem getLsbD_encodeR (f7 : BitVec 7) (rs2 rs1 : Reg) (f3 : BitVec 3) (rd : Reg) (i : Nat) :
    (encodeR f7 rs2 rs1 f3 rd).getLsbD i =
      if i < 7 then (0x33#7).getLsbD i else if i < 12 then rd.getLsbD (i - 7) else if i < 15 then f3.getLsbD (i - 12)
      else if i < 20 then rs1.getLsbD (i - 15) else if i < 25 then rs2.getLsbD (i - 20) else f7.getLsbD (i - 25) := by
  show BitVec.getLsbD (w := 7 + 5 + 5 + 3 + 5 + 7) (f7 ++ rs2 ++ rs1 ++ f3 ++ rd ++ 0x33#7) i = _
  simp only [BitVec.getLsbD_append, Nat.sub_sub]
  (repeat' split) <;> first | rfl | omega

/-- The bits of a word of the register-immediate format. -/
theorem getLsbD_encodeI (imm : Word) (rs1 : Reg) (f3 : BitVec 3) (rd : Reg) (i : Nat) :
    (encodeI imm rs1 f3 rd).getLsbD i =
      if i < 7 then (0x13#7).getLsbD i else if i < 12 then rd.getLsbD (i - 7) else if i < 15 then f3.getLsbD (i - 12)
      else if i < 20 then rs1.getLsbD (i - 15) else (imm.extractLsb' 0 12).getLsbD (i - 20) := by
  show BitVec.getLsbD (w := 12 + 5 + 3 + 5 + 7) (imm.extractLsb' 0 12 ++ rs1 ++ f3 ++ rd ++ 0x13#7) i = _
  simp only [BitVec.getLsbD_append, Nat.sub_sub]
  (repeat' split) <;> first | rfl | omega

/-- The bits of a word of the store format. -/
theorem getLsbD_encodeS (imm : Word) (rs2 rs1 : Reg) (i : Nat) :
    (encodeS imm rs2 rs1).getLsbD i =
      if i < 7 then (0x23#7).getLsbD i else if i < 12 then (imm.extractLsb' 0 5).getLsbD (i - 7)
      else if i < 15 then (2#3).getLsbD (i - 12) else if i < 20 then rs1.getLsbD (i - 15)
      else if i < 25 then rs2.getLsbD (i - 20) else (imm.extractLsb' 5 7).getLsbD (i - 25) := by
  show BitVec.getLsbD (w := 7 + 5 + 5 + 3 + 5 + 7)
    (imm.extractLsb' 5 7 ++ rs2 ++ rs1 ++ 2#3 ++ imm.extractLsb' 0 5 ++ 0x23#7) i = _
  simp only [BitVec.getLsbD_append, Nat.sub_sub]
  (repeat' split) <;> first | rfl | omega

/-- The bits of a word of the branch format. -/
theorem getLsbD_encodeB (imm : Word) (rs2 rs1 : Reg) (i : Nat) :
    (encodeB imm rs2 rs1).getLsbD i =
      if i < 7 then (0x63#7).getLsbD i else if i < 8 then (imm.extractLsb' 11 1).getLsbD (i - 7)
      else if i < 12 then (imm.extractLsb' 1 4).getLsbD (i - 8) else if i < 15 then (1#3).getLsbD (i - 12)
      else if i < 20 then rs1.getLsbD (i - 15) else if i < 25 then rs2.getLsbD (i - 20)
      else if i < 31 then (imm.extractLsb' 5 6).getLsbD (i - 25) else (imm.extractLsb' 12 1).getLsbD (i - 31) := by
  show BitVec.getLsbD (w := 1 + 6 + 5 + 5 + 3 + 4 + 1 + 7)
    (imm.extractLsb' 12 1 ++ imm.extractLsb' 5 6 ++ rs2 ++ rs1 ++ 1#3 ++ imm.extractLsb' 1 4 ++ imm.extractLsb' 11 1
      ++ 0x63#7) i = _
  simp only [BitVec.getLsbD_append, Nat.sub_sub]
  (repeat' split) <;> first | rfl | omega

/-- The bits of a word of the upper-immediate format. -/
theorem getLsbD_encodeU (imm : Word) (rd : Reg) (i : Nat) :
    (encodeU imm rd).getLsbD i =
      if i < 7 then (0x17#7).getLsbD i else if i < 12 then rd.getLsbD (i - 7)
      else (imm.extractLsb' 12 20).getLsbD (i - 12) := by
  show BitVec.getLsbD (w := 20 + 5 + 7) (imm.extractLsb' 12 20 ++ rd ++ 0x17#7) i = _
  simp only [BitVec.getLsbD_append, Nat.sub_sub]
  (repeat' split) <;> first | rfl | omega

/-- The bits of a word of the jump format. -/
theorem getLsbD_encodeJ (imm : Word) (rd : Reg) (i : Nat) :
    (encodeJ imm rd).getLsbD i =
      if i < 7 then (0x6F#7).getLsbD i else if i < 12 then rd.getLsbD (i - 7)
      else if i < 20 then (imm.extractLsb' 12 8).getLsbD (i - 12) else if i < 21 then (imm.extractLsb' 11 1).getLsbD (i - 20)
      else if i < 31 then (imm.extractLsb' 1 10).getLsbD (i - 21) else (imm.extractLsb' 20 1).getLsbD (i - 31) := by
  show BitVec.getLsbD (w := 1 + 10 + 1 + 8 + 5 + 7)
    (imm.extractLsb' 20 1 ++ imm.extractLsb' 1 10 ++ imm.extractLsb' 11 1 ++ imm.extractLsb' 12 8 ++ rd ++ 0x6F#7) i = _
  simp only [BitVec.getLsbD_append, Nat.sub_sub]
  (repeat' split) <;> first | rfl | omega

/-- A field of a word equals a value when the word's bits over the field are the value's. -/
theorem extractLsb'_eq_of_bits {w : Word} {start len : Nat} {f : BitVec len}
    (h : ∀ i, i < len → w.getLsbD (start + i) = f.getLsbD i) : w.extractLsb' start len = f := by
  apply BitVec.eq_of_getLsbD_eq
  intro i hi
  rw [BitVec.getLsbD_extractLsb', decide_eq_true hi, Bool.true_and, h i hi]

theorem fields_encodeR (f7 : BitVec 7) (rs2 rs1 : Reg) (f3 : BitVec 3) (rd : Reg) :
    fieldOpcode (encodeR f7 rs2 rs1 f3 rd) = 0x33#7 ∧ fieldRd (encodeR f7 rs2 rs1 f3 rd) = rd ∧
    fieldFunct3 (encodeR f7 rs2 rs1 f3 rd) = f3 ∧ fieldRs1 (encodeR f7 rs2 rs1 f3 rd) = rs1 ∧
    fieldRs2 (encodeR f7 rs2 rs1 f3 rd) = rs2 ∧ fieldFunct7 (encodeR f7 rs2 rs1 f3 rd) = f7 := by
  refine ⟨?_, ?_, ?_, ?_, ?_, ?_⟩ <;> refine extractLsb'_eq_of_bits fun i hi => ?_ <;> rw [getLsbD_encodeR] <;>
    (repeat' split) <;> first | omega | (congr 1; omega)

theorem fields_encodeI (imm : Word) (rs1 : Reg) (f3 : BitVec 3) (rd : Reg) :
    fieldOpcode (encodeI imm rs1 f3 rd) = 0x13#7 ∧ fieldRd (encodeI imm rs1 f3 rd) = rd ∧
    fieldFunct3 (encodeI imm rs1 f3 rd) = f3 ∧ fieldRs1 (encodeI imm rs1 f3 rd) = rs1 ∧
    immI (encodeI imm rs1 f3 rd) = sext (imm.extractLsb' 0 12) := by
  refine ⟨?_, ?_, ?_, ?_, congrArg sext ?_⟩ <;> refine extractLsb'_eq_of_bits fun i hi => ?_ <;> rw [getLsbD_encodeI] <;>
    (repeat' split) <;> first | omega | (congr 1; omega)

theorem fields_encodeS (imm : Word) (rs2 rs1 : Reg) :
    fieldOpcode (encodeS imm rs2 rs1) = 0x23#7 ∧ fieldRs1 (encodeS imm rs2 rs1) = rs1 ∧
    fieldRs2 (encodeS imm rs2 rs1) = rs2 ∧ (encodeS imm rs2 rs1).extractLsb' 25 7 = imm.extractLsb' 5 7 ∧
    (encodeS imm rs2 rs1).extractLsb' 7 5 = imm.extractLsb' 0 5 := by
  refine ⟨?_, ?_, ?_, ?_, ?_⟩ <;> refine extractLsb'_eq_of_bits fun i hi => ?_ <;> rw [getLsbD_encodeS] <;>
    (repeat' split) <;> first | omega | (congr 1; omega)

theorem fields_encodeB (imm : Word) (rs2 rs1 : Reg) :
    fieldOpcode (encodeB imm rs2 rs1) = 0x63#7 ∧ fieldRs1 (encodeB imm rs2 rs1) = rs1 ∧
    fieldRs2 (encodeB imm rs2 rs1) = rs2 ∧ (encodeB imm rs2 rs1).extractLsb' 31 1 = imm.extractLsb' 12 1 ∧
    (encodeB imm rs2 rs1).extractLsb' 7 1 = imm.extractLsb' 11 1 ∧
    (encodeB imm rs2 rs1).extractLsb' 25 6 = imm.extractLsb' 5 6 ∧
    (encodeB imm rs2 rs1).extractLsb' 8 4 = imm.extractLsb' 1 4 := by
  refine ⟨?_, ?_, ?_, ?_, ?_, ?_, ?_⟩ <;> refine extractLsb'_eq_of_bits fun i hi => ?_ <;> rw [getLsbD_encodeB] <;>
    (repeat' split) <;> first | omega | (congr 1; omega)

theorem fields_encodeU (imm : Word) (rd : Reg) :
    fieldOpcode (encodeU imm rd) = 0x17#7 ∧ fieldRd (encodeU imm rd) = rd ∧
    (encodeU imm rd).extractLsb' 12 20 = imm.extractLsb' 12 20 := by
  refine ⟨?_, ?_, ?_⟩ <;> refine extractLsb'_eq_of_bits fun i hi => ?_ <;> rw [getLsbD_encodeU] <;>
    (repeat' split) <;> first | omega | (congr 1; omega)

theorem fields_encodeJ (imm : Word) (rd : Reg) :
    fieldOpcode (encodeJ imm rd) = 0x6F#7 ∧ fieldRd (encodeJ imm rd) = rd ∧
    (encodeJ imm rd).extractLsb' 31 1 = imm.extractLsb' 20 1 ∧ (encodeJ imm rd).extractLsb' 12 8 = imm.extractLsb' 12 8 ∧
    (encodeJ imm rd).extractLsb' 20 1 = imm.extractLsb' 11 1 ∧ (encodeJ imm rd).extractLsb' 21 10 = imm.extractLsb' 1 10 := by
  refine ⟨?_, ?_, ?_, ?_, ?_, ?_⟩ <;> refine extractLsb'_eq_of_bits fun i hi => ?_ <;> rw [getLsbD_encodeJ] <;>
    (repeat' split) <;> first | omega | (congr 1; omega)

/-- A mask selects the bits of a word where it is 1. -/
theorem and_mask_eq_iff {w m v : Word} {sel : Nat → Bool} (hm : ∀ i, i < 32 → m.getLsbD i = sel i)
    (hv : ∀ i, i < 32 → sel i = false → v.getLsbD i = false) :
    w &&& m = v ↔ ∀ i, i < 32 → sel i = true → w.getLsbD i = v.getLsbD i := by
  constructor
  · intro h i hi hs
    rw [← h, BitVec.getLsbD_and, hm i hi, hs, Bool.and_true]
  · intro h
    apply BitVec.eq_of_getLsbD_eq
    intro i hi
    rw [BitVec.getLsbD_and, hm i hi]
    cases hs : sel i
    · rw [Bool.and_false, hv i hi hs]
    · rw [Bool.and_true, h i hi hs]

/-- Two words agree on a field exactly when they agree on its bits. -/
theorem extractLsb'_eq_iff {w v : Word} {start len : Nat} : w.extractLsb' start len = v.extractLsb' start len ↔
    ∀ i, start ≤ i → i < start + len → w.getLsbD i = v.getLsbD i := by
  constructor
  · intro h i h1 h2
    have := congrArg (·.getLsbD (i - start)) h
    simpa only [BitVec.getLsbD_extractLsb', decide_eq_true (show i - start < len by omega), Bool.true_and,
      Nat.add_sub_cancel' h1] using this
  · intro h
    refine extractLsb'_eq_of_bits fun i hi => ?_
    rw [h _ (by omega) (by omega), BitVec.getLsbD_extractLsb', decide_eq_true hi, Bool.true_and]

/-- The rows that examine the opcode alone (R119). -/
theorem opcode_row {w v : Word} (hv : ∀ i, i < 32 → decide (i < 7) = false → v.getLsbD i = false) :
    w &&& 0x0000007F#32 = v ↔ fieldOpcode w = fieldOpcode v := by
  rw [and_mask_eq_iff (sel := fun i => decide (i < 7)) (by decide) hv, fieldOpcode, fieldOpcode, extractLsb'_eq_iff]
  simp only [decide_eq_true_eq]
  exact ⟨fun h i _ h2 => h i (by omega) (by omega), fun h i _ h2 => h i (by omega) (by omega)⟩

/-- The rows that examine the opcode and funct3 (R119). -/
theorem opcode_funct3_row {w v : Word}
    (hv : ∀ i, i < 32 → (decide (i < 7) || decide (12 ≤ i ∧ i < 15)) = false → v.getLsbD i = false) :
    w &&& 0x0000707F#32 = v ↔ fieldOpcode w = fieldOpcode v ∧ fieldFunct3 w = fieldFunct3 v := by
  rw [and_mask_eq_iff (sel := fun i => decide (i < 7) || decide (12 ≤ i ∧ i < 15)) (by decide) hv]
  simp only [fieldOpcode, fieldFunct3, extractLsb'_eq_iff, Bool.or_eq_true, decide_eq_true_eq]
  refine ⟨fun h => ⟨fun i h1 h2 => h i (by omega) (by omega), fun i h1 h2 => h i (by omega) (by omega)⟩, fun h i _ h2 => ?_⟩
  rcases h2 with h2 | h2
  · exact h.1 i (by omega) (by omega)
  · exact h.2 i (by omega) (by omega)

/-- The rows that examine the opcode, funct3 and funct7 (R119). -/
theorem opcode_funct37_row {w v : Word}
    (hv : ∀ i, i < 32 → (decide (i < 7) || decide (12 ≤ i ∧ i < 15) || decide (25 ≤ i)) = false → v.getLsbD i = false) :
    w &&& 0xFE00707F#32 = v ↔
      fieldOpcode w = fieldOpcode v ∧ fieldFunct3 w = fieldFunct3 v ∧ fieldFunct7 w = fieldFunct7 v := by
  rw [and_mask_eq_iff (sel := fun i => decide (i < 7) || decide (12 ≤ i ∧ i < 15) || decide (25 ≤ i)) (by decide) hv]
  simp only [fieldOpcode, fieldFunct3, fieldFunct7, extractLsb'_eq_iff, Bool.or_eq_true, decide_eq_true_eq]
  refine ⟨fun h => ⟨fun i h1 h2 => h i (by omega) (by omega), fun i h1 h2 => h i (by omega) (by omega),
    fun i h1 h2 => h i (by omega) (by omega)⟩, fun h i _ h2 => ?_⟩
  rcases h2 with (h2 | h2) | h2
  · exact h.1 i (by omega) (by omega)
  · exact h.2.1 i (by omega) (by omega)
  · exact h.2.2 i (by omega) (by omega)

/-- A word with a nonzero opcode is not the zero word. -/
theorem ne_zero_of_opcode {w : Word} (h : fieldOpcode w ≠ 0#7) : w ≠ 0#32 := by
  rintro rfl; exact h (by decide)

/-- The bits of `sext`: those of the field, then copies of its top bit (R16). -/
theorem getLsbD_sext {n : Nat} (f : BitVec n) (i : Nat) (hi : i < 32) :
    (sext f).getLsbD i = if i < n then f.getLsbD i else f.msb := by
  rw [sext, BitVec.getLsbD_signExtend, decide_eq_true hi, Bool.true_and]

/-- The signed value of `sext` is that of the field (R16). -/
theorem toInt_sext {n : Nat} (f : BitVec n) (hn : n ≤ 32) : (sext f).toInt = f.toInt :=
  BitVec.toInt_signExtend_of_le hn

/-- A Word whose signed value fits N bits is the sign extension of its low N bits. -/
theorem sext_low {n : Nat} (v : Word) (hn : 0 < n) (hn' : n ≤ 32)
    (h1 : -(2 ^ (n - 1) : Int) ≤ v.toInt) (h2 : v.toInt < 2 ^ (n - 1)) : sext (v.extractLsb' 0 n) = v := by
  have hp : (2 : Int) ^ n = 2 * 2 ^ (n - 1) := by
    conv_lhs => rw [show n = (n - 1) + 1 by omega, pow_succ]
    ring
  have hlow : v.extractLsb' 0 n = v.setWidth n := by
    apply BitVec.eq_of_getLsbD_eq
    intro i hi
    simp [hi]
  have hmod : (v.toNat : Int).bmod (2 ^ n) = v.toInt.bmod (2 ^ n) := by
    obtain ⟨k, hk⟩ : (2 ^ n : Int) ∣ (v.toNat : Int) - v.toInt := by
      refine Int.dvd_trans (pow_dvd_pow 2 hn') ?_
      rw [BitVec.toInt_eq_toNat_cond]
      split <;> simp
    rw [show (v.toNat : Int) = v.toInt + 2 ^ n * k by omega]
    exact_mod_cast Int.add_mul_bmod_self_left v.toInt (2 ^ n) k
  apply BitVec.eq_of_toInt_eq
  rw [toInt_sext _ hn', hlow, BitVec.toInt_setWidth, hmod]
  rw [Int.bmod_eq_of_le] <;> push_cast <;> omega

/-- The store immediate read back from its two places (R105, R111). -/
theorem immS_encodeS (imm : Word) (rs2 rs1 : Reg) : immS (encodeS imm rs2 rs1) = sext (imm.extractLsb' 0 12) := by
  obtain ⟨_, _, _, hi, lo⟩ := fields_encodeS imm rs2 rs1
  rw [immS, hi, lo]
  refine congrArg sext (BitVec.eq_of_getLsbD_eq fun i hlt => ?_)
  rw [BitVec.getLsbD_append]
  simp only [BitVec.getLsbD_extractLsb']
  split
  · rw [decide_eq_true (by omega), decide_eq_true (by omega)]
  · rw [decide_eq_true (by omega), decide_eq_true (by omega)]
    congr 2
    omega

/-- Bit 0 of an even Word is 0. -/
theorem getLsbD_zero_of_even {v : Word} (h : v.toNat % 2 = 0) : v.getLsbD 0 = false := by
  simp [BitVec.getLsbD, Nat.testBit_zero, h]

/-- The branch immediate read back from its four places (R106, R112). -/
theorem immB_encodeB (imm : Word) (rs2 rs1 : Reg) (h : imm.toNat % 2 = 0) :
    immB (encodeB imm rs2 rs1) = sext (imm.extractLsb' 0 13) := by
  obtain ⟨_, _, _, e1, e2, e3, e4⟩ := fields_encodeB imm rs2 rs1
  rw [immB, e1, e2, e3, e4]
  refine congrArg sext (BitVec.eq_of_getLsbD_eq fun i hlt => ?_)
  rw [BitVec.getLsbD_extractLsb', decide_eq_true hlt, Bool.true_and, Nat.zero_add]
  simp only [BitVec.getLsbD_append, BitVec.getLsbD_extractLsb', Nat.sub_sub]
  rcases Nat.eq_zero_or_pos i with rfl | hpos
  · simpa using getLsbD_zero_of_even h
  · (repeat' split) <;> first | omega | (rw [decide_eq_true (by omega), Bool.true_and]; congr 1; omega)

/-- The jump immediate read back from its four places (R108, R114). -/
theorem immJ_encodeJ (imm : Word) (rd : Reg) (h : imm.toNat % 2 = 0) :
    immJ (encodeJ imm rd) = sext (imm.extractLsb' 0 21) := by
  obtain ⟨_, _, e1, e2, e3, e4⟩ := fields_encodeJ imm rd
  rw [immJ, e1, e2, e3, e4]
  refine congrArg sext (BitVec.eq_of_getLsbD_eq fun i hlt => ?_)
  rw [BitVec.getLsbD_extractLsb', decide_eq_true hlt, Bool.true_and, Nat.zero_add]
  simp only [BitVec.getLsbD_append, BitVec.getLsbD_extractLsb', Nat.sub_sub]
  rcases Nat.eq_zero_or_pos i with rfl | hpos
  · simpa using getLsbD_zero_of_even h
  · (repeat' split) <;> first | omega | (rw [decide_eq_true (by omega), Bool.true_and]; congr 1; omega)

end Sys2Proof
end

