-- ==== Sys2Proof/Laws/Ops.lean ====
section
/-!
SUPPORT. Inversion lemmas: for each shared operation, everything it can do, said once.
-/

namespace Sys2Proof.Machine

/-- The Executor answers a next state exactly when its arm does, with register 0 forced (R145). -/
theorem executor_next {arm : State → Result} {s t : State} :
    executor arm s = .next t ↔ ∃ u, arm (copyRegs s) = .next u ∧ t = forceZero u := by
  unfold executor
  cases arm (copyRegs s) <;> simp [eq_comm]

theorem executor_fault {arm : State → Result} {s : State} {f : Fault} :
    executor arm s = .fault f ↔ arm (copyRegs s) = .fault f := by
  unfold executor
  cases arm (copyRegs s) <;> simp

theorem executor_refused {arm : State → Result} {s : State} {r : Refusal} :
    executor arm s = .refused r ↔ arm (copyRegs s) = .refused r := by
  unfold executor
  cases arm (copyRegs s) <;> simp

/-- An arm that always completes makes an instruction that always completes. -/
theorem executor_pure (f : State → State) (s : State) :
    executor (fun t => .next (f t)) s = .next (forceZero (f (copyRegs s))) := rfl

/-- SW's arm answers a next state exactly when the provider serves the store address. -/
theorem storeWordArm_next {rs1 rs2 : Reg} {imm : Word} {s t : State} :
    storeWordArm rs1 rs2 imm s = .next t ↔ memWrite s (storeAddress s rs1 imm) (readReg s rs2) = .ok t := by
  unfold storeWordArm
  split <;> simp_all

theorem storeWordArm_fault {rs1 rs2 : Reg} {imm : Word} {s : State} {f : Fault} :
    storeWordArm rs1 rs2 imm s = .fault f ↔
      (checkAccess s (storeAddress s rs1 imm) = .error .misaligned ∧ f = .storeMisaligned (storeAddress s rs1 imm) (refusedWrite s (storeAddress s rs1 imm) (readReg s rs2))) ∨
      (checkAccess s (storeAddress s rs1 imm) = .error .notServed ∧ f = .storeAccess (storeAddress s rs1 imm) (refusedWrite s (storeAddress s rs1 imm) (readReg s rs2))) := by
  unfold storeWordArm memWrite
  cases checkAccess s (storeAddress s rs1 imm) with
  | ok u => simp
  | error e => cases e <;> simp [eq_comm]

theorem storeWordArm_not_refused {rs1 rs2 : Reg} {imm : Word} {s : State} {r : Refusal} :
    storeWordArm rs1 rs2 imm s ≠ .refused r := by
  unfold storeWordArm
  split <;> simp

/-- A step is accepted exactly under the conditions of R52. -/
theorem rejectStep_none {s : State} : rejectStep s = none ↔ Accepts s := by
  unfold rejectStep Accepts
  cases s.run <;> cases s.phase <;> simp

theorem rejectStep_some {s : State} {r : Refusal} : rejectStep s = some r ↔
    (s.run = false ∧ r = .halted) ∨ (s.run = true ∧ s.phase = .stepped ∧ r = .stepBeforeCommit) := by
  unfold rejectStep
  cases s.run <;> cases s.phase <;> simp [eq_comm]

/-- The Fetcher succeeds exactly when the read does (R141). -/
theorem fetch_ok {s t : State} {ir : Word} :
    fetch s = .ok (ir, t) ↔ memRead s s.cur.pc = .ok ir ∧ t = fetched s ir := by
  unfold fetch
  split
  · rename_i h
    rw [h]
    simp only [Except.ok.injEq, Prod.mk.injEq]
    constructor
    · rintro ⟨rfl, rfl⟩; exact ⟨rfl, rfl⟩
    · rintro ⟨rfl, rfl⟩; exact ⟨rfl, rfl⟩
  · rename_i h; simp [h]
  · rename_i h; simp [h]

theorem fetch_error {s : State} {f : Fault} : fetch s = .error f ↔
    (checkAccess s s.cur.pc = .error .misaligned ∧ f = .fetchMisaligned s.cur.pc (aftermath s [.readRefused s.cur.pc])) ∨
    (checkAccess s s.cur.pc = .error .notServed ∧ f = .fetchAccess s.cur.pc (aftermath s [.readRefused s.cur.pc])) := by
  unfold fetch memRead
  cases checkAccess s s.cur.pc with
  | ok u => simp
  | error e => cases e <;> simp [eq_comm]

/-- The commit answers a next state exactly after a step (R40, R53). -/
theorem commit_next {s t : State} : commit s = .next t ↔ s.phase = .stepped ∧ t = { s with cur := s.nxt, phase := .idle } := by
  unfold commit
  split <;> simp_all [eq_comm]

/-- The block's step answers a next state exactly when it is accepted, its fetch succeeds and the Executor does. -/
theorem coreStep_next {s t : State} :
    coreStep s = .next t ↔ ∃ ir, Fetches s ir ∧ exec (decodeWord ir) (fetched s ir) = .next t := by
  unfold coreStep Fetches
  cases hr : rejectStep s with
  | some r =>
    have : ¬ Accepts s := fun h => by rw [rejectStep_none.2 h] at hr; cases hr
    simp [this]
  | none =>
    cases hf : fetch s with
    | error f =>
      have : ∀ ir, memRead s s.cur.pc ≠ .ok ir := fun ir h => by
        rw [fetch_ok.2 ⟨h, rfl⟩] at hf; cases hf
      simp [this]
    | ok p =>
      obtain ⟨ir, u⟩ := p
      obtain ⟨h, rfl⟩ := fetch_ok.1 hf
      simp [rejectStep_none.1 hr, h]

/-- The block's step faults exactly when it is accepted and its fetch or its Executor does. -/
theorem coreStep_fault {s : State} {f : Fault} : coreStep s = .fault f ↔
    Accepts s ∧ (fetch s = .error f ∨ ∃ ir, Fetches s ir ∧ exec (decodeWord ir) (fetched s ir) = .fault f) := by
  unfold coreStep
  cases hr : rejectStep s with
  | some r =>
    have : ¬ Accepts s := fun h => by rw [rejectStep_none.2 h] at hr; cases hr
    simp [this]
  | none =>
    have ha := rejectStep_none.1 hr
    cases hf : fetch s with
    | error e =>
      have : ∀ ir, ¬ Fetches s ir := fun ir h => by rw [fetch_ok.2 ⟨h.2, rfl⟩] at hf; cases hf
      simp [ha, this]
    | ok p =>
      obtain ⟨ir, u⟩ := p
      obtain ⟨h, rfl⟩ := fetch_ok.1 hf
      simp [ha, Fetches, h]

/-- The reset input answers the reset state with memory and `MemValid` kept, outside an instruction cycle (R56, R292). -/
theorem resetInput_next {l : Launch} {s t : State} :
    resetInput l s = .next t ↔ ¬ (s.run = true ∧ s.phase = .stepped) ∧ t = resetWith l s.mem s.served := by
  unfold resetInput
  by_cases h : s.run = true ∧ s.phase = .stepped
  · simp [h]
  · rw [if_neg h, Host.Outcome.next.injEq]
    exact ⟨fun e => ⟨h, e.symm⟩, fun e => e.2.symm⟩

/-- A cycle that answers a next state is a step that did, committed. -/
theorem step_next {s t : State} : step s = .next t ↔ ∃ u, coreStep s = .next u ∧ commit u = .next t := by
  unfold step
  cases coreStep s <;> simp

/-- A run of no cycles stays where it is. -/
theorem run_zero (s : State) : Host.Core.run Sys2Proof.core 0 s = .next s := rfl

/-- A run of one cycle more is a cycle, then the rest of the run; it stops at the first fault or refusal. -/
theorem run_succ (k : Nat) (s : State) : Host.Core.run Sys2Proof.core (k + 1) s =
    match step s with
    | .next t => Host.Core.run Sys2Proof.core k t
    | .fault f => .fault f
    | .refused r => .refused r := by
  cases h : step s <;> simp [Host.Core.run, show Sys2Proof.core.step s = _ from h]

end Sys2Proof.Machine
end

