-- ==== Sys2Proof/Laws/Exec.lean ====
section
/-!
SUPPORT. One equation per meaning: what the Executor answers for each instruction, over the named operations. A proof cites
these and does not unfold a meaning.
-/

namespace Sys2Proof.Machine

theorem exec_add (rd rs1 rs2 : Reg) (s : State) : exec (.add rd rs1 rs2) s =
    .next (forceZero (writeReg (copyRegs s) rd (readReg s rs1 + readReg s rs2))) := rfl

theorem exec_slt (rd rs1 rs2 : Reg) (s : State) : exec (.slt rd rs1 rs2) s =
    .next (forceZero (writeReg (copyRegs s) rd (setIfLessSigned (readReg s rs1) (readReg s rs2)))) := rfl

theorem exec_addi (rd rs1 : Reg) (imm : Word) (s : State) : exec (.addi rd rs1 imm) s =
    .next (forceZero (writeReg (copyRegs s) rd (readReg s rs1 + imm))) := rfl

theorem exec_slli (rd rs1 : Reg) (imm : Word) (s : State) : exec (.slli rd rs1 imm) s =
    .next (forceZero (writeReg (copyRegs s) rd (readReg s rs1 <<< shiftAmount imm))) := rfl

theorem exec_sw (rs1 rs2 : Reg) (imm : Word) (s : State) : exec (.sw rs1 rs2 imm) s =
    executor (storeWordArm rs1 rs2 imm) s := rfl

theorem exec_bne (rs1 rs2 : Reg) (imm : Word) (s : State) : exec (.bne rs1 rs2 imm) s =
    .next (forceZero (if readReg s rs1 ≠ readReg s rs2 then writePc (copyRegs s) (pcRelative s imm) else copyRegs s)) := by
  rw [exec, execBne, executor_pure]
  simp only [readReg_copyRegs, pcRelative_copyRegs, branchTaken, bne_iff_ne]

theorem exec_auipc (rd : Reg) (imm : Word) (s : State) : exec (.auipc rd imm) s =
    .next (forceZero (writeReg (copyRegs s) rd (pcRelative s imm))) := rfl

theorem exec_jal (rd : Reg) (imm : Word) (s : State) : exec (.jal rd imm) s =
    .next (forceZero (writePc (writeReg (copyRegs s) rd (linkValue s)) (pcRelative s imm))) := rfl

theorem exec_halt (s : State) : exec .halt s = .next (forceZero (takeHalt .sentinel (copyRegs s))) := rfl

/-- With the spec's value of `RESERVED_SUBFUNC` every unsupported word halts (R232, R234). -/
theorem exec_unsupported (ir : Word) (s : State) : exec (.unsupported ir) s =
    .next (forceZero (takeHalt (.unsupported ir) (copyRegs s))) := by
  simp [exec, execUnsupported, executor_pure, unsupportedArm, Config.reservedSubfunc]

/-- SW answers a next state exactly when the provider serves its address: the word stored, the request recorded. -/
theorem exec_sw_next {rs1 rs2 : Reg} {imm : Word} {s t : State} : exec (.sw rs1 rs2 imm) s = .next t ↔
    ∃ u, memWrite (copyRegs s) (storeAddress s rs1 imm) (readReg s rs2) = .ok u ∧ t = forceZero u := by
  rw [exec_sw, executor_next]
  simp only [storeWordArm_next, storeAddress_copyRegs, readReg_copyRegs]

/-- SW faults exactly when the provider's test refuses its address, with the refused write on record. -/
theorem exec_sw_fault {rs1 rs2 : Reg} {imm : Word} {s : State} {f : Fault} : exec (.sw rs1 rs2 imm) s = .fault f ↔
    (checkAccess s (storeAddress s rs1 imm) = .error .misaligned ∧
      f = .storeMisaligned (storeAddress s rs1 imm) (refusedWrite s (storeAddress s rs1 imm) (readReg s rs2))) ∨
    (checkAccess s (storeAddress s rs1 imm) = .error .notServed ∧
      f = .storeAccess (storeAddress s rs1 imm) (refusedWrite s (storeAddress s rs1 imm) (readReg s rs2))) := by
  rw [exec_sw, executor_fault, storeWordArm_fault]
  simp only [storeAddress_copyRegs, readReg_copyRegs, checkAccess_copyRegs, refusedWrite_copyRegs]

end Sys2Proof.Machine
end

