-- ==== Sys2Proof/Laws/PerInstr.lean ====
section
/-!
SUPPORT. The law stated per instruction: an instruction's word lies in its own row of the opcode table (R119), and the word of
a well-formed unsupported instruction lies in none.
-/

namespace Sys2Proof.Laws.EncodedRow

/-- The word of an instruction is covered by every row of its mnemonic; that of a well-formed unsupported one, which has no
row, is covered by none. -/
def Statement (i : Instr) : Prop :=
  (∀ r ∈ opcodeRows, r.mnemonic = i.mnemonic → r.covers (encode i) = true) ∧
  (i.wf = true → i.mnemonic = "UNSUPPORTED" → ∀ r ∈ opcodeRows, r.covers (encode i) = false)

/-- For an instruction with a row the statement is that the row covers its word. -/
theorem of_row {i : Instr} {m v : Word} (hm : ∀ r ∈ opcodeRows, r.mnemonic = i.mnemonic → r.mask = m ∧ r.value = v)
    (hn : i.mnemonic ≠ "UNSUPPORTED") (h : encode i &&& m = v) : Statement i := by
  refine ⟨fun r hr hi => ?_, fun _ hu => absurd hu hn⟩
  obtain ⟨rfl, rfl⟩ := hm r hr hi
  simpa [OpcodeRow.covers] using h

theorem add (rd rs1 rs2 : Reg) : Statement (.add rd rs1 rs2) := by
  obtain ⟨ho, _, h3, _, _, h7⟩ := fields_encodeR 0#7 rs2 rs1 0#3 rd
  refine of_row (m := 0xFE00707F#32) (v := 0x00000033#32) (by simp only [Instr.mnemonic]; decide) (by simp [Instr.mnemonic]) ?_
  exact (opcode_funct37_row (by decide)).2 ⟨ho, h3, h7⟩

theorem slt (rd rs1 rs2 : Reg) : Statement (.slt rd rs1 rs2) := by
  obtain ⟨ho, _, h3, _, _, h7⟩ := fields_encodeR 0#7 rs2 rs1 2#3 rd
  refine of_row (m := 0xFE00707F#32) (v := 0x00002033#32) (by simp only [Instr.mnemonic]; decide) (by simp [Instr.mnemonic]) ?_
  exact (opcode_funct37_row (by decide)).2 ⟨ho, h3, h7⟩

theorem addi (rd rs1 : Reg) (imm : Word) : Statement (.addi rd rs1 imm) := by
  obtain ⟨ho, _, h3, _⟩ := fields_encodeI imm rs1 0#3 rd
  refine of_row (m := 0x0000707F#32) (v := 0x00000013#32) (by simp only [Instr.mnemonic]; decide) (by simp [Instr.mnemonic]) ?_
  exact (opcode_funct3_row (by decide)).2 ⟨ho, h3⟩

theorem slli (rd rs1 : Reg) (imm : Word) : Statement (.slli rd rs1 imm) := by
  obtain ⟨ho, _, h3, _⟩ := fields_encodeI imm rs1 1#3 rd
  refine of_row (m := 0x0000707F#32) (v := 0x00001013#32) (by simp only [Instr.mnemonic]; decide) (by simp [Instr.mnemonic]) ?_
  exact (opcode_funct3_row (by decide)).2 ⟨ho, h3⟩

theorem sw (rs1 rs2 : Reg) (imm : Word) : Statement (.sw rs1 rs2 imm) := by
  refine of_row (m := 0x0000007F#32) (v := 0x00000023#32) (by simp only [Instr.mnemonic]; decide) (by simp [Instr.mnemonic]) ?_
  exact (opcode_row (by decide)).2 (fields_encodeS imm rs2 rs1).1

theorem bne (rs1 rs2 : Reg) (imm : Word) : Statement (.bne rs1 rs2 imm) := by
  refine of_row (m := 0x0000007F#32) (v := 0x00000063#32) (by simp only [Instr.mnemonic]; decide) (by simp [Instr.mnemonic]) ?_
  exact (opcode_row (by decide)).2 (fields_encodeB imm rs2 rs1).1

theorem auipc (rd : Reg) (imm : Word) : Statement (.auipc rd imm) := by
  refine of_row (m := 0x0000007F#32) (v := 0x00000017#32) (by simp only [Instr.mnemonic]; decide) (by simp [Instr.mnemonic]) ?_
  exact (opcode_row (by decide)).2 (fields_encodeU imm rd).1

theorem jal (rd : Reg) (imm : Word) : Statement (.jal rd imm) := by
  refine of_row (m := 0x0000007F#32) (v := 0x0000006F#32) (by simp only [Instr.mnemonic]; decide) (by simp [Instr.mnemonic]) ?_
  exact (opcode_row (by decide)).2 (fields_encodeJ imm rd).1

theorem halt : Statement .halt :=
  of_row (m := 0xFFFFFFFF#32) (v := 0x00000000#32) (by simp only [Instr.mnemonic]; decide) (by simp [Instr.mnemonic]) (by decide)

theorem unsupported (ir : Word) : Statement (.unsupported ir) := by
  refine ⟨fun r hr hi => ?_, fun hwf _ r hr => ?_⟩
  · exact absurd hi ((by simp only [Instr.mnemonic]; decide :
      ∀ r ∈ opcodeRows, r.mnemonic ≠ (Instr.unsupported ir).mnemonic) r hr)
  · have : wfUnsupported ir = true := hwf
    simp only [wfUnsupported, List.all_eq_true, Bool.not_eq_true'] at this
    exact this r hr

end Sys2Proof.Laws.EncodedRow
end

