-- ==== Sys2Proof/Tests/Slice0.lean ====
section
/-!
SUPPORT. Tests on fixed values, each with its source in spec/, and for every obligation with hypotheses a named witness
that meets them. A vector `B<n>.<m>` or property `A<n>` is one of spec/95_test_vectors.md.
-/

namespace Sys2Proof.Tests

open Sys2Proof.Machine

-- Helpers.

/-- A state with some registers of the current copy replaced. -/
def withRegs (s : State) : List (Reg × Word) → State
  | [] => s
  | (r, v) :: l => withRegs { s with cur := { s.cur with x := s.cur.x.set r.toNat v r.isLt } } l

/-- State.reset with the pc, one instruction word at it, and some registers. -/
def place (pc ir : Word) (l : List (Reg × Word)) : State :=
  withRegs (State.withFetchWord { State.reset with cur := { State.reset.cur with pc := pc } } 32 ir.toNat) l

/-- The same with the word addresses below `top` alone served. -/
def placeBelow (top : Nat) (pc ir : Word) (l : List (Reg × Word)) : State := { place pc ir l with served := [⟨0, top⟩] }

/-- What a next state shows. -/
def after {α : Type} (f : State → α) : Result → Option α
  | .next t => some (f t)
  | .fault _ => none
  | .refused _ => none

def faultOf : Result → Option Fault
  | .next _ => none
  | .fault f => some f
  | .refused _ => none

def refusalOf : Result → Option Refusal
  | .next _ => none
  | .fault _ => none
  | .refused r => some r

/-- What a fault records: its code, its address and the requests made. -/
def faultRecord (r : Result) : Option (Nat × Word × List Request) := (faultOf r).map fun f => (f.code, f.addr, f.left.bus)

theorem next_of_after {α : Type} {f : State → α} {r : Result} {v : α} (h : after f r = some v) :
    ∃ t, r = .next t ∧ f t = v := by
  cases r with
  | next t => exact ⟨t, rfl, Option.some.inj h⟩
  | fault _ => cases h
  | refused _ => cases h

-- Well-formedness: each check refuses a term (R110 to R114, R118).

theorem test_wf_imm12_above : (Instr.addi 1 1 2048).wf = false := by decide
theorem test_wf_imm12_below : (Instr.sw 1 2 0xFFFFF7FF).wf = false := by decide
theorem test_wf_imm12_slli : (Instr.slli 1 1 0x00000FFF).wf = false := by decide
theorem test_wf_imm12_ends : (Instr.addi 1 1 2047).wf = true ∧ (Instr.addi 1 1 0xFFFFF800).wf = true := by decide
theorem test_wf_immB_above : (Instr.bne 1 2 4096).wf = false := by decide
theorem test_wf_immB_below : (Instr.bne 1 2 0xFFFFEFFE).wf = false := by decide
theorem test_wf_immB_odd : (Instr.bne 1 2 7).wf = false := by decide
theorem test_wf_immB_ends : (Instr.bne 1 2 4094).wf = true ∧ (Instr.bne 1 2 0xFFFFF000).wf = true := by decide
theorem test_wf_immU_low_bits : (Instr.auipc 1 0x00001001).wf = false := by decide
theorem test_wf_immJ_above : (Instr.jal 1 1048576).wf = false := by decide
theorem test_wf_immJ_below : (Instr.jal 1 0xFFEFFFFE).wf = false := by decide
theorem test_wf_immJ_odd : (Instr.jal 1 3).wf = false := by decide
theorem test_wf_immJ_ends : (Instr.jal 1 1048574).wf = true ∧ (Instr.jal 1 0xFFF00000).wf = true := by decide
theorem test_wf_unsupported_zero : (Instr.unsupported 0).wf = false := by decide
theorem test_wf_unsupported_add : (Instr.unsupported 0x002081B3).wf = false := by decide
theorem test_wf_unsupported_reserved : (Instr.unsupported 0x402081B3).wf = true := by decide

-- Decoding: the spec's words, bit by bit from the patterns of R119 (fields left to right, bit 31 first).

theorem test_decode_add : decodeWord (0b0000000#7 ++ 2#5 ++ 1#5 ++ 0b000#3 ++ 3#5 ++ 0b0110011#7) = .add 3 1 2 := by decide
theorem test_decode_slt : decodeWord (0b0000000#7 ++ 2#5 ++ 1#5 ++ 0b010#3 ++ 3#5 ++ 0b0110011#7) = .slt 3 1 2 := by decide
theorem test_decode_addi : decodeWord (0b100000000000#12 ++ 7#5 ++ 0b000#3 ++ 6#5 ++ 0b0010011#7) = .addi 6 7 0xFFFFF800 := by
  decide
theorem test_decode_slli : decodeWord (0b0000000#7 ++ 31#5 ++ 3#5 ++ 0b001#3 ++ 4#5 ++ 0b0010011#7) = .slli 4 3 31 := by decide
theorem test_decode_sw : decodeWord (0b1111111#7 ++ 5#5 ++ 6#5 ++ 0b010#3 ++ 0b11100#5 ++ 0b0100011#7) =
    .sw 6 5 0xFFFFFFFC := by decide
theorem test_decode_bne : decodeWord (0b1111111#7 ++ 0#5 ++ 1#5 ++ 0b001#3 ++ 0b11001#5 ++ 0b1100011#7) =
    .bne 1 0 0xFFFFFFF8 := by decide
theorem test_decode_auipc : decodeWord (0x12345#20 ++ 5#5 ++ 0b0010111#7) = .auipc 5 0x12345000 := by decide
theorem test_decode_jal : decodeWord (0b1#1 ++ 0b1111111110#10 ++ 0b1#1 ++ 0b11111111#8 ++ 0#5 ++ 0b1101111#7) =
    .jal 0 0xFFFFFFFC := by decide
theorem test_decode_halt : decodeWord 0x00000000 = .halt := by decide
theorem test_decode_unsupported : decodeWord 0x00008067 = .unsupported 0x00008067 := by decide

/-- The same ten classes as words of spec/ (R170, R171, R180, R181, R190, R200, R210, R220, B9.6), read from bytes as
memory holds them. -/
theorem test_decodeTableWord :
    decodeTableWord 32 0x002081B3 = some (.add 3 1 2) ∧ decodeTableWord 32 0x0020A1B3 = some (.slt 3 1 2) ∧
    decodeTableWord 32 0x00A00293 = some (.addi 5 0 10) ∧ decodeTableWord 32 0x00419213 = some (.slli 4 3 4) ∧
    decodeTableWord 32 0x00112023 = some (.sw 2 1 0) ∧ decodeTableWord 32 0x00209463 = some (.bne 1 2 8) ∧
    decodeTableWord 32 0xFFFFF297 = some (.auipc 5 0xFFFFF000) ∧ decodeTableWord 32 0x00C000EF = some (.jal 1 12) ∧
    decodeTableWord 32 0 = some .halt ∧ decodeTableWord 32 0x000000B7 = some (.unsupported 0x000000B7) := by decide

/-- B0: one immediate bit at a time, at the seams of each format. -/
theorem test_immediate_bits :
    immI 0x40000013 = 0x400 ∧ immI 0x80000013 = 0xFFFFF800 ∧ immS 0x000000A3 = 1 ∧ immS 0x00000823 = 0x10 ∧
    immS 0x02000023 = 0x20 ∧ immB 0x000000E3 = 0x800 ∧ immB 0x00000163 = 2 ∧ immB 0x00000863 = 0x10 ∧
    immB 0x02000063 = 0x20 ∧ immB 0x7E000FE3 = 0xFFE ∧ immU 0x00001017 = 0x1000 ∧ immU 0x80000017 = 0x80000000 ∧
    immJ 0x0000106F = 0x1000 ∧ immJ 0x0008006F = 0x80000 ∧ immJ 0x0010006F = 0x800 ∧ immJ 0x0020006F = 2 ∧
    immJ 0x4000006F = 0x400 ∧ immJ 0x7FFFF0EF = 0xFFFFE := by decide

/-- B0: the fields of 0xFE532E23. -/
theorem test_fields : fieldOpcode 0xFE532E23 = 0x23 ∧ fieldRd 0xFE532E23 = 0x1C ∧ fieldFunct3 0xFE532E23 = 2 ∧
    fieldRs1 0xFE532E23 = 6 ∧ fieldRs2 0xFE532E23 = 5 ∧ fieldFunct7 0xFE532E23 = 0x7F := by decide

/-- The encoder writes the words the spec's examples print, unexamined bits as R129 fills them. -/
theorem test_encode :
    encode (.add 3 1 2) = 0x002081B3 ∧ encode (.slt 7 6 0) = 0x000323B3 ∧ encode (.addi 1 1 0xFFFFFFFF) = 0xFFF08093 ∧
    encode (.slli 4 3 31) = 0x01F19213 ∧ encode (.sw 6 5 0xFFFFFFFC) = 0xFE532E23 ∧
    encode (.bne 1 2 4094) = 0x7E209FE3 ∧ encode (.auipc 5 0x12345000) = 0x12345297 ∧
    encode (.jal 1 1048574) = 0x7FFFF0EF ∧ encode .halt = 0 ∧ encode (.unsupported 0x73) = 0x73 := by decide

-- The instructions, one cycle each.

/-- B1.2 -/
theorem test_add_wraps :
    after (fun t => (readReg t 3, t.cur.pc)) (step (place 0 0x002081B3 [(1, 0xFFFFFFFF), (2, 1), (3, 0x55)])) =
      some (0, 4) := by decide
/-- B1.5 -/
theorem test_add_same_register : after (readReg · 3) (step (place 0 0x003181B3 [(3, 0x40000001)])) = some 0x80000002 := by decide
/-- B2.2 -/
theorem test_slt_signed :
    after (readReg · 3) (step (place 0 0x0020A1B3 [(1, 1), (2, 0xFFFFFFFF), (3, 9)])) = some 0 := by decide
/-- B2.4 -/
theorem test_slt_extremes :
    after (readReg · 3) (step (place 0 0x0020A1B3 [(1, 0x80000000), (2, 0x7FFFFFFF)])) = some 1 := by decide
/-- B3.2 -/
theorem test_addi_negative : after (readReg · 1) (step (place 0 0xFFF08093 [])) = some 0xFFFFFFFF := by decide
/-- B3.8 -/
theorem test_addi_x0 : after (readReg · 0) (step (place 0 0x00508013 [(1, 3)])) = some 0 := by decide
/-- B4.5 -/
theorem test_slli_ignores_bits_31_25 : after (readReg · 4) (step (place 0 0x41F19213 [(3, 1)])) = some 0x80000000 := by decide
/-- B4.4 -/
theorem test_slli_loses_bits : after (readReg · 4) (step (place 0 0x00119213 [(3, 0xC0000001)])) = some 0x80000002 := by decide
/-- B5.3 -/
theorem test_sw_bytes :
    after (fun t => (t.mem.readByte 0x1000, t.mem.readByte 0x1001, t.mem.readByte 0x1002, t.mem.readByte 0x1003, readReg t 6))
      (step (place 0 0xFE532E23 [(5, 0xDEADBEEF), (6, 0x1004)])) = some (0xEF, 0xBE, 0xAD, 0xDE, 0x1004) := by decide
/-- B5.8 -/
theorem test_sw_misaligned :
    faultRecord (step (place 0 0x00112023 [(1, 1), (2, 0x1002)])) =
      some (4, 0x1002, [.readWord 0 0x00112023, .writeRefused 0x1002 1]) := by decide
/-- B6.3 -/
theorem test_bne_backward : after (·.cur.pc) (step (place 0x10 0xFE009CE3 [(1, 1)])) = some 8 := by decide
/-- B6.9 -/
theorem test_bne_equal : after (·.cur.pc) (step (place 0x10 0x00208463 [(1, 2), (2, 2)])) = some 0x14 := by decide
/-- B7.2 -/
theorem test_auipc_wraps :
    after (fun t => (readReg t 5, t.cur.pc)) (step (place 0x1000 0xFFFFF297 [(5, 7)])) = some (0, 0x1004) := by decide
/-- B7.3 -/
theorem test_auipc_own_address : after (readReg · 5) (step (place 0x44 0x00000297 [])) = some 0x44 := by decide
/-- B8.8 -/
theorem test_jal_link_wraps :
    after (fun t => (readReg t 1, t.cur.pc)) (step (place 0xFFFFFFFC 0x008000EF [(1, 9)])) = some (0, 4) := by decide
/-- B8.6 -/
theorem test_jal_self : after (fun t => (readReg t 0, t.cur.pc)) (step (place 0x40 0x0000006F [])) = some (0, 0x40) := by decide
/-- B9.1 -/
theorem test_halt :
    after (fun t => (t.run, t.cur.pc, t.diag, haltCause t)) (step (place 0x20 0 [(1, 1)])) =
      some (false, 0x24, none, some .sentinel) := by decide
/-- B9.9 -/
theorem test_reserved_subfunction :
    after (fun t => (t.run, t.cur.pc, t.diag, readReg t 3)) (step (place 0x14 0x402081B3 [(1, 5), (2, 7)])) =
      some (false, 0x18, some ⟨0x14, 0x402081B3⟩, 0) := by decide
/-- B9.7 -/
theorem test_unsupported :
    after (fun t => (t.run, t.cur.pc, t.diag)) (step (place 0 0x00008067 [(1, 8)])) =
      some (false, 4, some ⟨0, 0x00008067⟩) := by decide

-- Faults, the driver, reset.

/-- B10.1 -/
theorem test_fetch_misaligned : faultRecord (step (place 2 0x00000013 [])) = some (2, 2, [.readRefused 2]) := by decide
/-- B10.2 -/
theorem test_fetch_access :
    faultRecord (step (placeBelow 0x100 0x100 0x00000013 [])) = some (3, 0x100, [.readRefused 0x100]) := by decide
/-- B10.4 -/
theorem test_fetch_alignment_first :
    faultRecord (step (placeBelow 0x100 0x101 0x00000013 [])) = some (2, 0x101, [.readRefused 0x101]) := by decide
/-- B5.10 -/
theorem test_store_access :
    faultRecord (step (placeBelow 0x1000 0 0x00112023 [(1, 1), (2, 0x1000)])) =
      some (5, 0x1000, [.readWord 0 0x00112023, .writeRefused 0x1000 1]) := by decide
/-- P6, R256: a refused store leaves memory as it was before the step, and reset keeps it (R292). -/
theorem test_reset_after_fault :
    (faultOf (step (placeBelow 0x100 4 0x0000A023 [(1, 0x100)]))).map (fun f =>
      ((resetAfterFault Launch.plain f).mem == (placeBelow 0x100 4 0x0000A023 [(1, 0x100)]).mem,
        (resetAfterFault Launch.plain f).cur.pc, (resetAfterFault Launch.plain f).run)) = some (true, 0, true) := by decide
/-- P4's image: its words are at their addresses, little-endian (R74). -/
theorem test_load_image :
    Memory.loadImage [] [(0, 0x00100093), (4, 0x00009363), (8, 0)] =
      [(0, 0x93), (2, 0x10), (4, 0x63), (5, 0x93)] := by decide
/-- R80: the last served word is served. -/
theorem test_store_last_word :
    after (·.mem.readByte 0xFFC) (step (placeBelow 0x1000 0 0x00112023 [(1, 7), (2, 0xFFC)])) = some 7 := by decide
/-- B11.1: a step leaves the current copy. -/
theorem test_step_leaves_current :
    after (fun t => (readReg t 5, t.cur.pc, readNxt t 5, t.nxt.pc)) (coreStep (place 0 0x00A00293 [])) =
      some (0, 0, 10, 4) := by decide
/-- B11.3 (D11) -/
theorem test_no_step_at_run_0 : refusalOf (step { place 0x24 0x00000013 [] with run := false }) = some .halted := by decide
/-- R305, U14 -/
theorem test_no_step_before_commit :
    refusalOf (step { place 0 0x00000013 [] with phase := .stepped }) = some .stepBeforeCommit := by decide
/-- R53 -/
theorem test_no_commit_before_step : refusalOf (commit State.reset) = some .commitBeforeStep := by decide
/-- R292 -/
theorem test_no_reset_inside_cycle :
    refusalOf (resetInput Launch.plain { State.reset with phase := .stepped }) = some .resetInsideCycle := by decide
/-- R56, R292: reset leaves HALTED and keeps memory. -/
theorem test_reset_leaves_halted :
    after (fun t => (t.run, t.cur.pc, t.mem)) (resetInput Launch.plain { State.reset with run := false, mem := [(5, 1)] }) =
      some (true, 0, [(5, 1)]) := by decide
/-- From State.reset with nothing placed the first cycle fetches the zero word and halts (R230). -/
theorem test_reset_alone_halts : after (fun t => (t.run, t.cur.pc)) (step State.reset) = some (false, 4) := by decide
/-- R87, B11: the requests of a store's cycle, in order. -/
theorem test_requests :
    after (·.bus) (step (place 0x100 0x00112023 [(1, 0x13), (2, 0x100)])) =
      some [.readWord 0x100 0x00112023, .writeWord 0x100 0x13] := by decide
/-- A write of the unlisted byte removes the entry (log entry 4). -/
theorem test_memory_canonical : Memory.writeByte [(1, 7), (2, 8)] 1 0 = [(2, 8)] ∧ Memory.wf [(1, 0)] = false ∧
    Memory.wf [(2, 8), (1, 7)] = false ∧ Memory.wf [(4294967296, 1)] = false := by decide

-- Witnesses. States: an ordinary one after the Fetcher, and one about to fetch a word.

/-- A state the Executor may run in: the Fetcher has been at pc 0x100. -/
def ready : State := fetched (place 0x100 0x00000013 [(1, 5), (2, 8), (3, 9)]) 0x00000013

theorem test_witness_DecodeOfEncodeIsIdentity :
    (Instr.sw 31 31 0xFFFFF800).wf = true ∧ (Instr.bne 31 0 4094).wf = true ∧ (Instr.jal 0 0xFFF00000).wf = true ∧
    (Instr.unsupported 0xFFFFFFFF).wf = true := by decide
theorem test_witness_EncodeOfDecodeKeepsExaminedBits :
    fieldOpcode 0x00117023 = 0x23#7 ∧ fieldOpcode 0x0020F463 = 0x63#7 ∧
    fieldOpcode 0x002081B3 ≠ 0x23#7 ∧ fieldOpcode 0x002081B3 ≠ 0x63#7 := by decide
theorem test_witness_DecoderFollowsOpcodeTable :
    ∃ r ∈ opcodeRows, ∃ q ∈ opcodeRows, r.covers 0x002081B3 = true ∧ q.covers 0x002081B3 = true := by decide
theorem test_witness_ImmediatesPlaceEveryBit :
    wfImm12 0xFFFFF800 = true ∧ wfImm12 2047 = true ∧ wfImmB 0xFFFFF000 = true ∧ wfImmB 4094 = true ∧
    wfImmU 0xFFFFF000 = true ∧ wfImmJ 0xFFF00000 = true ∧ wfImmJ 1048574 = true ∧ fieldOpcode 0x80000013 = 0x13#7 ∧
    fieldOpcode 0x80000023 = 0x23#7 ∧ fieldOpcode 0x80000063 = 0x63#7 ∧ fieldOpcode 0x80000017 = 0x17#7 ∧
    fieldOpcode 0x8000006F = 0x6F#7 := by decide
theorem test_witness_SignExtensionOrsMask :
    (0x800#12).msb = true ∧ (0x7FF#12).msb = false ∧ (0x80000000#32).msb = true ∧ (1#1).msb = true := by decide
theorem test_sign_extension_ends : sext 0x800#12 = 0xFFFFF800 ∧ sext 0x7FF#12 = 0x7FF ∧ sext 0x80000000#32 = 0x80000000 ∧
    sext 1#1 = 0xFFFFFFFF := by decide
theorem test_witness_DecodeReadsFourBytes : ([1, 2, 3] : List Byte).length < 4 ∧ ¬ ([1, 2, 3, 4] : List Byte).length < 4 := by
  decide

/-- The three clauses of MemRead and MemWrite at the ends of what `placeBelow 0x1000` serves. -/
theorem test_witness_MemReadAnswers :
    (0xFFD#32).toNat % 4 ≠ 0 ∧
    ((0x1000#32).toNat % 4 = 0 ∧ memValid (placeBelow 0x1000 0 0 []).served 0x1000 = false) ∧
    ((0xFFC#32).toNat % 4 = 0 ∧ memValid (placeBelow 0x1000 0 0 []).served 0xFFC = true) := by decide
theorem test_witness_MemWriteStoresFourBytes :
    Memory.wf (placeBelow 0x1000 0 0x00000013 []).mem = true ∧ (0xFFF#32).toNat % 4 ≠ 0 ∧
    ((0xFFFFFFFC#32).toNat % 4 = 0 ∧ memValid (placeBelow 0x1000 0 0x00000013 []).served 0xFFFFFFFC = false) ∧
    ((0#32).toNat % 4 = 0 ∧ memValid (placeBelow 0x1000 0 0x00000013 []).served 0 = true) ∧
    ((0xFFFFFFFC#32).toNat % 4 = 0 ∧ memValid State.reset.served 0xFFFFFFFC = true) := by decide
theorem test_witness_AlignedWordsAreIndependent :
    ∃ t, Memory.wf State.reset.mem = true ∧ memWrite State.reset 0x1000 7 = .ok t ∧ (0x1000#32).toNat % 4 = 0 ∧
      (0x1004#32).toNat % 4 = 0 := ⟨_, rfl, rfl, rfl, rfl⟩
theorem test_witness_CanonicalMemoriesAreEqualWhenTheyReadEqual :
    Memory.wf [(5, 1), (4294967295, 2)] = true ∧
    ∀ a : Nat, Memory.readByte [(5, 1), (4294967295, 2)] a = Memory.readByte [(5, 1), (4294967295, 2)] a :=
  ⟨by decide, fun _ => rfl⟩

theorem test_witness_AddWritesWrappedSum : HasDefaultPc ready ∧ 0x002081B3#32 &&& 0xFE00707F#32 = 0x00000033#32 :=
  ⟨rfl, by decide⟩
theorem test_witness_SltWritesSignedComparison : HasDefaultPc ready ∧ 0x0020A1B3#32 &&& 0xFE00707F#32 = 0x00002033#32 :=
  ⟨rfl, by decide⟩
theorem test_witness_AddiWritesWrappedSum : HasDefaultPc ready ∧ 0xFFF08093#32 &&& 0x0000707F#32 = 0x00000013#32 :=
  ⟨rfl, by decide⟩
theorem test_witness_SlliShiftsByMaskedImmediate :
    HasDefaultPc ready ∧ 0x41F19213#32 &&& 0x0000707F#32 = 0x00001013#32 ∧
    0x41F19213#32 &&& 0x01FFFFFF#32 = 0x01F19213#32 &&& 0x01FFFFFF#32 := ⟨rfl, by decide, by decide⟩
/-- SW's three clauses: misaligned, aligned and not served, served; 0x1000 is the first word that is not. -/
theorem test_witness_SwStoresWord :
    ((storeAddress (placeBelow 0x1000 0 0 [(2, 0x1002)]) 2 0).toNat % 4 ≠ 0) ∧
    ((storeAddress (placeBelow 0x1000 0 0 [(2, 0x1000)]) 2 0).toNat % 4 = 0 ∧
      memValid (placeBelow 0x1000 0 0 [(2, 0x1000)]).served (storeAddress (placeBelow 0x1000 0 0 [(2, 0x1000)]) 2 0) = false) ∧
    (HasDefaultPc ready ∧ Memory.wf ready.mem = true ∧ Serves ready (storeAddress ready 2 0)) :=
  ⟨by decide, by decide, rfl, by decide, rfl, by decide⟩
/-- Both outcomes of BNE: x1 and x2 of `ready` differ, x1 and x1 do not. -/
theorem test_witness_BneBranchesOnInequality :
    HasDefaultPc ready ∧ readReg ready 1 ≠ readReg ready 2 ∧ 0x0020F463#32 &&& 0x0000007F#32 = 0x00000063#32 :=
  ⟨rfl, by decide, by decide⟩
theorem test_witness_AuipcAddsToOwnAddress : HasDefaultPc ready ∧ 0xFFFFF297#32 &&& 0x0000007F#32 = 0x00000017#32 :=
  ⟨rfl, by decide⟩
theorem test_witness_JalLinksAndJumps : 0x800000EF#32 &&& 0x0000007F#32 = 0x0000006F#32 := by decide
theorem test_witness_HaltStopsWithoutDiagnostic :
    HasDefaultPc ready ∧ Fetches (place 0x20 0 []) 0 ∧
    ∃ t, step (place 0x20 0 []) = .next t ∧ (t.run, t.diag) = (false, none) :=
  ⟨rfl, ⟨⟨rfl, rfl⟩, rfl⟩, next_of_after (f := fun t => (t.run, t.diag)) (by decide)⟩
theorem test_witness_UnsupportedOpcodeHaltsWithDiagnostic :
    HasDefaultPc ready ∧ 0x00000080#32 ≠ 0#32 ∧ fieldOpcode 0x00000080 = 0 ∧ fieldOpcode 0x0000007F = 0x7F :=
  ⟨rfl, by decide, by decide, by decide⟩
theorem test_witness_ReservedSubfunctionsHalt :
    HasDefaultPc ready ∧ isReservedSubfunc 0x402081B3 = true ∧ isReservedSubfunc 0x002091B3 = true ∧
    isReservedSubfunc 0x0010A193 = true ∧ isReservedSubfunc 0x41F19213 = false :=
  ⟨rfl, by decide, by decide, by decide, by decide⟩

/-- A store and an instruction that stores nothing, each with a next state. -/
theorem test_witness_EveryInstructionKeepsItsFrame :
    Memory.wf ready.mem = true ∧ (∃ t, exec (.sw 2 1 0) ready = .next t ∧ storeOf ready (.sw 2 1 0) = some (8, 5)) ∧
    (∃ t, exec (.add 3 1 2) ready = .next t ∧ storeOf ready (.add 3 1 2) = none) :=
  ⟨by decide, ⟨_, rfl, rfl⟩, ⟨_, rfl, rfl⟩⟩
theorem test_witness_UnnamedSourcesDoNotMatter :
    (∀ r ∈ sourcesOf (.add 3 1 2), (ready.cur.x.set 7 1)[r.toNat]'r.isLt = readReg ready r) ∧
    ready.cur.x.set 7 1 ≠ ready.cur.x := by decide
theorem test_witness_RegisterZeroIsForced : ∃ t, exec (.addi 0 1 5) ready = .next t := ⟨_, rfl⟩
theorem test_witness_OldNextStateDoesNotMatter :
    Fetches (place 0x40 0x00508013 []) 0x00508013 ∧
    Fetches { place 0x40 0x00508013 [] with nxt := ⟨7, Vector.replicate 32 9⟩ } 0x00508013 ∧
    (∃ t, coreStep (place 0x40 0x00508013 []) = .next t) ∧
    (∃ t, coreStep { place 0x40 0x00508013 [] with nxt := ⟨7, Vector.replicate 32 9⟩ } = .next t) :=
  ⟨⟨⟨rfl, rfl⟩, rfl⟩, ⟨⟨rfl, rfl⟩, rfl⟩, ⟨_, rfl⟩, ⟨_, rfl⟩⟩
/-- Two states that differ in memory off the pc, and two whose fetch faults. -/
theorem test_witness_StepDependsOnCurrentWordAndMemValid :
    (∃ u, u ≠ place 4 0x00508013 [] ∧ Accepts (place 4 0x00508013 []) ∧ Accepts u ∧ (place 4 0x00508013 []).cur = u.cur ∧
      (place 4 0x00508013 []).served = u.served ∧ (place 4 0x00508013 []).mem.wordAt 4 = u.mem.wordAt 4) ∧
    (Accepts (place 2 0 []) ∧ (place 2 0 []).cur.pc = 2) :=
  ⟨⟨{ place 4 0x00508013 [] with mem := (place 4 0x00508013 []).mem.writeByte 9 1 }, by decide, ⟨rfl, rfl⟩, ⟨rfl, rfl⟩, rfl,
    rfl, by decide⟩, ⟨rfl, rfl⟩, rfl⟩

theorem test_witness_StepRunsTheDecodedInstruction :
    Accepts (place 0x100 0x002081B3 []) ∧ Serves (place 0x100 0x002081B3 []) 0x100 ∧ (Instr.add 3 1 2).wf = true ∧
    decode [(place 0x100 0x002081B3 []).mem.readByte 0x100, (place 0x100 0x002081B3 []).mem.readByte 0x101,
      (place 0x100 0x002081B3 []).mem.readByte 0x102, (place 0x100 0x002081B3 []).mem.readByte 0x103] =
      .ok (.add 3 1 2, []) :=
  ⟨⟨rfl, rfl⟩, ⟨rfl, by decide⟩, rfl, rfl⟩
/-- Both clauses, at the first address that is not served and one past it. -/
theorem test_witness_FetchFaultsByAddress :
    (Accepts (placeBelow 0x100 0x101 0 []) ∧ (0x101#32).toNat % 4 ≠ 0) ∧
    (Accepts (placeBelow 0x100 0x100 0 []) ∧ (0x100#32).toNat % 4 = 0 ∧
      memValid (placeBelow 0x100 0x100 0 []).served 0x100 = false) :=
  ⟨⟨⟨rfl, rfl⟩, by decide⟩, ⟨rfl, rfl⟩, by decide, by decide⟩
/-- The four faults occur. -/
theorem test_witness_FaultsAreExactlyTheListed :
    (∃ left, step (place 2 0 []) = .fault (.fetchMisaligned 2 left)) ∧
    (∃ left, step (placeBelow 0x100 0x100 0 []) = .fault (.fetchAccess 0x100 left)) ∧
    (∃ left, step (place 0 0x00112023 [(2, 0x1001)]) = .fault (.storeMisaligned 0x1001 left)) ∧
    (∃ left, step (placeBelow 0x1000 0 0x00112023 [(2, 0x1000)]) = .fault (.storeAccess 0x1000 left)) :=
  ⟨⟨_, rfl⟩, ⟨_, rfl⟩, ⟨_, rfl⟩, ⟨_, rfl⟩⟩
/-- A fetch fault and a store fault. -/
theorem test_witness_FaultsLeaveMemoryAndTheRequests :
    (∃ f, step (placeBelow 0x100 0x100 0 []) = .fault f ∧ f.code ≤ 3) ∧
    (∃ f, step (place 0 0x00112023 [(2, 0x1001)]) = .fault f ∧ 4 ≤ f.code) := ⟨⟨_, rfl, by decide⟩, ⟨_, rfl, by decide⟩⟩
theorem test_witness_OnlyTheDriverIsRefused :
    step { State.reset with run := false } = .refused .halted ∧
    step { State.reset with phase := .stepped } = .refused .stepBeforeCommit := ⟨rfl, rfl⟩
theorem test_witness_FetchedNonStoresComplete :
    Fetches (place 0x40 0x0000006F []) 0x0000006F ∧ storeOf (place 0x40 0x0000006F []) (decodeWord 0x0000006F) = none :=
  ⟨⟨⟨rfl, rfl⟩, rfl⟩, rfl⟩
theorem test_witness_NextPcFollowsTheTable :
    Fetches (place 0x10 0x00209463 [(1, 1)]) 0x00209463 ∧ ∃ t, step (place 0x10 0x00209463 [(1, 1)]) = .next t ∧ t.cur.pc = 0x18 :=
  ⟨⟨⟨rfl, rfl⟩, rfl⟩, next_of_after (f := fun t => t.cur.pc) (by decide)⟩
/-- P4: a branch to 0xA, 2 modulo 4, from an aligned pc. -/
theorem test_witness_OnlyTransfersMisalignThePc :
    Fetches (place 4 0x00009363 [(1, 1)]) 0x00009363 ∧ (place 4 0x00009363 [(1, 1)]).cur.pc.toNat % 4 = 0 ∧
    ∃ t, step (place 4 0x00009363 [(1, 1)]) = .next t ∧ t.cur.pc = 0xA :=
  ⟨⟨⟨rfl, rfl⟩, rfl⟩, rfl, next_of_after (f := fun t => t.cur.pc) (by decide)⟩
/-- A target that is 2 modulo 4 (P4), and an aligned one that is not served. -/
theorem test_witness_TransferTargetsAreTestedAtTheNextFetch :
    (Fetches (place 4 0x00009363 [(1, 1)]) 0x00009363 ∧ transfersControl (decodeWord 0x00009363) = true ∧
      (nextPc (place 4 0x00009363 [(1, 1)]) (decodeWord 0x00009363)).toNat % 4 = 2) ∧
    (Fetches (placeBelow 0x100 0xFC 0x008000EF []) 0x008000EF ∧ transfersControl (decodeWord 0x008000EF) = true ∧
      (nextPc (placeBelow 0x100 0xFC 0x008000EF []) (decodeWord 0x008000EF)).toNat % 4 = 0 ∧
      memValid [⟨0, 0x100⟩] (nextPc (placeBelow 0x100 0xFC 0x008000EF []) (decodeWord 0x008000EF)) = false) :=
  ⟨⟨⟨⟨rfl, rfl⟩, rfl⟩, by decide, by decide⟩, ⟨⟨rfl, rfl⟩, rfl⟩, by decide, by decide, by decide⟩
/-- A cycle that keeps RUNNING, one that halts, and a HALTED state. -/
theorem test_witness_RunFlagFollowsTheStateMachine :
    (Fetches (place 0 0x00000013 []) 0x00000013 ∧ ∃ t, step (place 0 0x00000013 []) = .next t ∧ t.run = true) ∧
    (Fetches (place 0 0x0000007F []) 0x0000007F ∧ ∃ t, step (place 0 0x0000007F []) = .next t ∧ t.run = false) ∧
    ({ State.reset with run := false } : State).run = false :=
  ⟨⟨⟨⟨rfl, rfl⟩, rfl⟩, next_of_after (f := fun t => t.run) (by decide)⟩,
    ⟨⟨⟨rfl, rfl⟩, rfl⟩, next_of_after (f := fun t => t.run) (by decide)⟩, rfl⟩
theorem test_witness_DiagnosticExactlyWhenUnsupported :
    Fetches (place 8 0xFFFFFFFF []) 0xFFFFFFFF ∧
    ∃ t, step (place 8 0xFFFFFFFF []) = .next t ∧ t.diag = some ⟨8, 0xFFFFFFFF⟩ :=
  ⟨⟨⟨rfl, rfl⟩, rfl⟩, next_of_after (f := fun t => t.diag) (by decide)⟩
theorem test_witness_RequestsAreOneReadThenAtMostOneWrite :
    Fetches (place 0 0x00112023 [(1, 42), (2, 0x1000)]) 0x00112023 ∧
    ∃ t, step (place 0 0x00112023 [(1, 42), (2, 0x1000)]) = .next t ∧
      t.bus = [.readWord 0 0x00112023, .writeWord 0x1000 42] :=
  ⟨⟨⟨rfl, rfl⟩, rfl⟩, next_of_after (f := fun t => t.bus) (by decide)⟩
theorem test_witness_OnlyStoresChangeMemory :
    Memory.wf (place 0 0x00112023 [(1, 42), (2, 0x1000)]).mem = true ∧
    Fetches (place 0 0x00112023 [(1, 42), (2, 0x1000)]) 0x00112023 ∧
    (place 0 0x00112023 [(1, 42), (2, 0x1000)]).mem.readByte 0x1000 = 0 ∧
    ∃ t, step (place 0 0x00112023 [(1, 42), (2, 0x1000)]) = .next t ∧ t.mem.readByte 0x1000 = 42 :=
  ⟨by decide, ⟨⟨rfl, rfl⟩, rfl⟩, by decide, next_of_after (f := fun t => t.mem.readByte 0x1000) (by decide)⟩
/-- An SW to the address after its own, and one over its own word (B5.11). -/
theorem test_witness_StoredWordIsFetchedNext :
    (Memory.wf (place 0 0x00112023 [(1, 0x13), (2, 4)]).mem = true ∧
      Fetches (place 0 0x00112023 [(1, 0x13), (2, 4)]) 0x00112023 ∧ decodeWord 0x00112023 = .sw 2 1 0 ∧
      Serves (place 0 0x00112023 [(1, 0x13), (2, 4)]) (storeAddress (place 0 0x00112023 [(1, 0x13), (2, 4)]) 2 0) ∧
      storeAddress (place 0 0x00112023 [(1, 0x13), (2, 4)]) 2 0 = (place 0 0x00112023 [(1, 0x13), (2, 4)]).cur.pc + 4) ∧
    (Fetches (place 0x100 0x00112023 [(1, 0x13), (2, 0x100)]) 0x00112023 ∧
      Serves (place 0x100 0x00112023 [(1, 0x13), (2, 0x100)]) 0x100) :=
  ⟨⟨by decide, ⟨⟨rfl, rfl⟩, rfl⟩, by decide, ⟨by decide, by decide⟩, by decide⟩, ⟨⟨rfl, rfl⟩, rfl⟩, rfl, by decide⟩
theorem test_witness_CommitCopiesNextIntoCurrent :
    ready.phase = .stepped ∧ ∃ t, coreStep (place 0 0 []) = .next t ∧ t.run = false :=
  ⟨rfl, next_of_after (f := fun t => t.run) (by decide)⟩
theorem test_witness_CommitNeedsAStep : ∃ t, commit ready = .next t := ⟨_, rfl⟩

/-- Both sides of the premise: a halted state, and an idle one. -/
theorem test_witness_ResetInputKeepsMemory :
    ({ State.reset with run := false, phase := .stepped } : State).run = false ∧ State.reset.phase = .idle := ⟨rfl, rfl⟩
theorem test_witness_ResetAfterAFaultKeepsMemory :
    ∃ f, step (placeBelow 0x1000 0 0x00112023 [(2, 0x1000)]) = .fault f ∧
      Memory.wf (placeBelow 0x1000 0 0x00112023 [(2, 0x1000)]).mem = true := ⟨_, rfl, by decide⟩

/-- A launch at the last served word with a program of one word there. -/
def topLaunch : Launch := { Launch.plain with resetPc := 0xFFC, memInit := [(0xFFC, 0x13)], served := [⟨0, 0x1000⟩] }

theorem test_topLaunch_holds : HoldsImage [(0xFFC, 0x13)] topLaunch.memInit := by
  simp [HoldsImage, topLaunch]; decide

theorem test_witness_LaunchMeetsItsPremises :
    topLaunch.resetPc.toNat % 4 = 0 ∧ memValid topLaunch.served topLaunch.resetPc = true ∧
    HoldsImage [(0xFFC, 0x13)] topLaunch.memInit ∧ Memory.wf topLaunch.memInit = true :=
  ⟨by decide, by decide, test_topLaunch_holds, by decide⟩
/-- Two adjacent words, the second at the top of the address space. -/
theorem test_witness_LoadedImagesAreHeld :
    Memory.wf [(5, 1)] = true ∧ (∀ q ∈ ([(0xFFFFFFF8, 1), (0xFFFFFFFC, 2)] : Image), q.1.toNat % 4 = 0) ∧
    (([(0xFFFFFFF8, 1), (0xFFFFFFFC, 2)] : Image).map Prod.fst).Nodup :=
  ⟨by decide, by simp, by decide⟩
theorem test_witness_FirstFetchIsTheWordAtResetPc :
    Launched topLaunch [(0xFFC, 0x13)] (State.launch topLaunch) ∧
    (topLaunch.resetPc, 0x13#32) ∈ ([(0xFFC, 0x13)] : Image) :=
  ⟨⟨rfl, rfl, ⟨rfl, ⟨by decide, by decide⟩⟩, test_topLaunch_holds, rfl⟩, by decide⟩
theorem test_witness_EveryCycleKeepsTheInvariant :
    Inv (place 0 0x00112023 [(1, 42), (2, 0x1000)]) ∧ ∃ t, step (place 0 0x00112023 [(1, 42), (2, 0x1000)]) = .next t :=
  ⟨⟨rfl, by decide, rfl, fun _ => rfl⟩, ⟨_, rfl⟩⟩
/-- A run of one cycle, and one of none. -/
theorem test_witness_EveryRunKeepsTheInvariant :
    Inv (place 0x40 0x0000006F []) ∧ ∃ t, Host.Core.run Sys2Proof.core 1 (place 0x40 0x0000006F []) = .next t :=
  ⟨⟨rfl, by decide, rfl, fun _ => rfl⟩, ⟨_, rfl⟩⟩
/-- A halt by the zero word and one by an unsupported word. -/
theorem test_witness_HaltLeavesAPreciseState :
    (Inv (place 0x20 0 [(1, 1)]) ∧ Fetches (place 0x20 0 [(1, 1)]) 0 ∧
      ∃ t, step (place 0x20 0 [(1, 1)]) = .next t ∧ t.run = false) ∧
    (Inv (place 0x20 0x7F [(1, 1)]) ∧ Fetches (place 0x20 0x7F [(1, 1)]) 0x7F ∧
      ∃ t, step (place 0x20 0x7F [(1, 1)]) = .next t ∧ t.run = false) :=
  ⟨⟨⟨rfl, by decide, rfl, fun _ => rfl⟩, ⟨⟨rfl, rfl⟩, rfl⟩, next_of_after (f := fun t => t.run) (by decide)⟩,
    ⟨⟨rfl, by decide, rfl, fun _ => rfl⟩, ⟨⟨rfl, rfl⟩, rfl⟩, next_of_after (f := fun t => t.run) (by decide)⟩⟩
theorem test_witness_EndedRunsStayEnded : RunEnded { State.reset with run := false } := ⟨rfl, rfl⟩
/-- A jump to itself, and B6.11. -/
theorem test_witness_SelfLoopsNeverHalt :
    (Inv (place 0x40 0x0000006F []) ∧ Fetches (place 0x40 0x0000006F []) 0x0000006F) ∧
    (Inv (place 0x10 0x00209063 [(1, 1), (2, 2)]) ∧ Fetches (place 0x10 0x00209063 [(1, 1), (2, 2)]) 0x00209063 ∧
      decodeWord 0x00209063 = .bne 1 2 0 ∧
      readReg (place 0x10 0x00209063 [(1, 1), (2, 2)]) 1 ≠ readReg (place 0x10 0x00209063 [(1, 1), (2, 2)]) 2) :=
  ⟨⟨⟨rfl, by decide, rfl, fun _ => rfl⟩, ⟨⟨rfl, rfl⟩, rfl⟩⟩,
    ⟨⟨rfl, by decide, rfl, fun _ => rfl⟩, ⟨⟨rfl, rfl⟩, rfl⟩, by decide, by decide⟩⟩

end Sys2Proof.Tests
end

section
/-!
Sign extension as an OR with a mask of ones (R16).
-/

namespace Sys2Proof

/-- The mask of R16 holds ones exactly from bit `n` up. -/
theorem getLsbD_onesAbove (n i : Nat) (hi : i < 32) : (0xFFFFFFFF#32 <<< n).getLsbD i = decide (n ≤ i) := by
  have hones : 0xFFFFFFFF#32 = BitVec.allOnes 32 := rfl
  have hin : i - n < 32 := by omega
  rw [hones, BitVec.getLsbD_shiftLeft, BitVec.getLsbD_allOnes]
  simp [hi, hin, ← decide_not]

/-- Settles O7, bit by bit: below bit `n` both sides are the field's bits, from bit `n` up both are its top bit. -/
theorem signExtensionOrsMask : Obligations.SignExtensionOrsMask := by
  intro n _ _ f
  refine BitVec.eq_of_getLsbD_eq fun i hi => ?_
  have hpad : (f.setWidth 32).getLsbD i = f.getLsbD i := by
    rw [BitVec.getLsbD_setWidth, decide_eq_true hi, Bool.true_and]
  rw [getLsbD_sext f i hi]
  cases hmsb : f.msb with
  | true =>
    rw [if_pos rfl, BitVec.getLsbD_or, hpad, getLsbD_onesAbove n i hi]
    split
    · rw [decide_eq_false (by omega), Bool.or_false]
    · rw [decide_eq_true (by omega), Bool.or_true]
  | false =>
    rw [if_neg Bool.false_ne_true, hpad]
    split
    · rfl
    · exact (BitVec.getLsbD_of_ge f i (by omega)).symm

end Sys2Proof
end

section
/-!
The cycle of an instruction that stores nothing completes (R13, R255): such an instruction always answers a next state,
and no instruction takes back the Fetcher's mark that a commit is owed.
-/

namespace Sys2Proof.Machine

/-- Which store an instruction makes depends on the current state alone. -/
@[simp] theorem storeOf_fetched (s : State) (ir : Word) (i : Instr) : storeOf (fetched s ir) i = storeOf s i := by
  cases i <;> rfl

/-- No instruction writes the current copy, what the provider serves, or the phase (R39, R145). -/
theorem exec_next_frame {i : Instr} {s t : State} (h : exec i s = .next t) :
    t.cur = s.cur ∧ t.served = s.served ∧ t.phase = s.phase := by
  cases i with
  | add rd rs1 rs2 => cases (exec_add rd rs1 rs2 s).symm.trans h; simp
  | slt rd rs1 rs2 => cases (exec_slt rd rs1 rs2 s).symm.trans h; simp
  | addi rd rs1 imm => cases (exec_addi rd rs1 imm s).symm.trans h; simp
  | slli rd rs1 imm => cases (exec_slli rd rs1 imm s).symm.trans h; simp
  | sw rs1 rs2 imm =>
    obtain ⟨u, hw, rfl⟩ := exec_sw_next.1 h
    obtain ⟨_, rfl⟩ := memWrite_ok.1 hw
    simp
  | bne rs1 rs2 imm => cases (exec_bne rs1 rs2 imm s).symm.trans h; split <;> simp
  | auipc rd imm => cases (exec_auipc rd imm s).symm.trans h; simp
  | jal rd imm => cases (exec_jal rd imm s).symm.trans h; simp
  | halt => cases (exec_halt s).symm.trans h; simp
  | unsupported ir => cases (exec_unsupported ir s).symm.trans h; simp

/-- Only SW can fault: an instruction that stores nothing answers a next state (R255). -/
theorem exec_next_of_storeOf_none {i : Instr} {s : State} (h : storeOf s i = none) : ∃ t, exec i s = .next t := by
  cases i with
  | add rd rs1 rs2 => exact ⟨_, exec_add rd rs1 rs2 s⟩
  | slt rd rs1 rs2 => exact ⟨_, exec_slt rd rs1 rs2 s⟩
  | addi rd rs1 imm => exact ⟨_, exec_addi rd rs1 imm s⟩
  | slli rd rs1 imm => exact ⟨_, exec_slli rd rs1 imm s⟩
  | sw rs1 rs2 imm => cases h
  | bne rs1 rs2 imm => exact ⟨_, exec_bne rs1 rs2 imm s⟩
  | auipc rd imm => exact ⟨_, exec_auipc rd imm s⟩
  | jal rd imm => exact ⟨_, exec_jal rd imm s⟩
  | halt => exact ⟨_, exec_halt s⟩
  | unsupported ir => exact ⟨_, exec_unsupported ir s⟩

/-- When the fetched instruction answers a next state, the cycle answers that state committed: the Fetcher owes the commit
(R141, R154). -/
theorem step_next_of_exec {s u : State} {ir : Word} (hf : Fetches s ir)
    (hx : exec (decodeWord ir) (fetched s ir) = .next u) : step s = .next { u with cur := u.nxt, phase := .idle } := by
  obtain ⟨-, -, hphase⟩ := exec_next_frame hx
  exact step_next.2 ⟨u, coreStep_next.2 ⟨ir, hf, hx⟩, commit_next.2 ⟨hphase.trans (fetched_phase s ir), rfl⟩⟩

/-- Settles O34: a non-store completes in the Executor, and its commit is accepted. -/
theorem fetchedNonStoresComplete : Obligations.FetchedNonStoresComplete := by
  intro s ir hf hstore
  obtain ⟨u, hx⟩ := exec_next_of_storeOf_none ((storeOf_fetched s ir _).trans hstore)
  exact ⟨_, step_next_of_exec hf hx⟩

end Sys2Proof.Machine
end

section
/-!
What a completed instruction leaves (R33, R144 to R149), said once over all ten instructions: where it transfers to, the
value of each register, the diagnostic it emits, and the store it makes.
-/

namespace Sys2Proof.Machine

/-- The target an instruction writes to the pc, in place of the Fetcher's default (R36, R202). -/
def transferTarget (s : State) : Instr → Option Word
  | .bne rs1 rs2 imm => if readReg s rs1 ≠ readReg s rs2 then some (s.cur.pc + imm) else none
  | .jal _ imm => some (s.cur.pc + imm)
  | .add _ _ _ | .slt _ _ _ | .addi _ _ _ | .slli _ _ _ | .sw _ _ _ | .auipc _ _ | .halt | .unsupported _ => none

/-- The value an instruction leaves in register `r`, before register 0 is forced to zero (R33, R149). -/
def regAfter (s : State) (r : Reg) : Instr → Word
  | .add rd rs1 rs2 => if r = rd then readReg s rs1 + readReg s rs2 else readReg s r
  | .slt rd rs1 rs2 => if r = rd then setIfLessSigned (readReg s rs1) (readReg s rs2) else readReg s r
  | .addi rd rs1 imm => if r = rd then readReg s rs1 + imm else readReg s r
  | .slli rd rs1 imm => if r = rd then readReg s rs1 <<< shiftAmount imm else readReg s r
  | .auipc rd imm => if r = rd then pcRelative s imm else readReg s r
  | .jal rd _ => if r = rd then linkValue s else readReg s r
  | .sw _ _ _ | .bne _ _ _ | .halt | .unsupported _ => readReg s r

/-- The diagnostic an instruction emits (R55, R233). -/
def emittedDiag (s : State) : Instr → Option Diag
  | .unsupported ir => some ⟨s.cur.pc, ir⟩
  | .add _ _ _ | .slt _ _ _ | .addi _ _ _ | .slli _ _ _ | .sw _ _ _ | .bne _ _ _ | .auipc _ _ | .jal _ _ | .halt => none

/-- Memory after the store an instruction makes, if it makes one (R73). -/
def memAfter (m : Memory) : Option (Word × Word) → Memory
  | some (a, v) => m.setWord a v
  | none => m

/-- The write request of the store an instruction makes, if it makes one (R76). -/
def writeRequests : Option (Word × Word) → List Request
  | some (a, v) => [.writeWord a v]
  | none => []

/-- What instruction `i`, executed in `s`, changes on its way to `t`; `exec_next_frame` has what it leaves. -/
structure Completion (i : Instr) (s t : State) : Prop where
  pc : t.nxt.pc = (transferTarget s i).getD s.nxt.pc
  regs : ∀ r : Reg, readNxt t r = if r = 0#5 then 0#32 else regAfter s r i
  mem : t.mem = memAfter s.mem (storeOf s i)
  bus : t.bus = s.bus ++ writeRequests (storeOf s i)
  run : t.run = (s.run && !haltsMachine i)
  diag : t.diag = (emittedDiag s i).or s.diag

/-- An instruction that only writes a register completes with that register written and nothing else. -/
theorem completion_writeReg {i : Instr} {s : State} {rd : Reg} {v : Word}
    (hpc : transferTarget s i = none) (hstore : storeOf s i = none) (hdiag : emittedDiag s i = none)
    (hrun : haltsMachine i = false) (hreg : ∀ r, regAfter s r i = if r = rd then v else readReg s r) :
    Completion i s (forceZero (writeReg (copyRegs s) rd v)) := by
  constructor <;> simp [hpc, hstore, hdiag, hrun, hreg, memAfter, writeRequests]

theorem completion_of_exec_next {i : Instr} {s t : State} (h : exec i s = .next t) : Completion i s t := by
  cases i with
  | add rd rs1 rs2 =>
    cases (exec_add rd rs1 rs2 s).symm.trans h
    exact completion_writeReg rfl rfl rfl rfl fun _ => rfl
  | slt rd rs1 rs2 =>
    cases (exec_slt rd rs1 rs2 s).symm.trans h
    exact completion_writeReg rfl rfl rfl rfl fun _ => rfl
  | addi rd rs1 imm =>
    cases (exec_addi rd rs1 imm s).symm.trans h
    exact completion_writeReg rfl rfl rfl rfl fun _ => rfl
  | slli rd rs1 imm =>
    cases (exec_slli rd rs1 imm s).symm.trans h
    exact completion_writeReg rfl rfl rfl rfl fun _ => rfl
  | sw rs1 rs2 imm =>
    obtain ⟨u, hw, rfl⟩ := exec_sw_next.1 h
    obtain ⟨_, rfl⟩ := memWrite_ok.1 hw
    exact ⟨rfl, readNxt_forceZero _, rfl, rfl, (Bool.and_true _).symm, rfl⟩
  | bne rs1 rs2 imm =>
    cases (exec_bne rs1 rs2 imm s).symm.trans h
    by_cases hne : readReg s rs1 = readReg s rs2 <;> constructor <;>
      simp [hne, transferTarget, regAfter, pcRelative, storeOf, memAfter, writeRequests, haltsMachine, emittedDiag]
  | auipc rd imm =>
    cases (exec_auipc rd imm s).symm.trans h
    exact completion_writeReg rfl rfl rfl rfl fun _ => rfl
  | jal rd imm =>
    cases (exec_jal rd imm s).symm.trans h
    constructor <;>
      simp [transferTarget, regAfter, pcRelative, storeOf, memAfter, writeRequests, haltsMachine, emittedDiag]
  | halt =>
    cases (exec_halt s).symm.trans h
    constructor <;> simp [transferTarget, regAfter, storeOf, memAfter, writeRequests, haltsMachine, emittedDiag]
  | unsupported ir =>
    cases (exec_unsupported ir s).symm.trans h
    constructor <;> simp [transferTarget, regAfter, storeOf, memAfter, writeRequests, haltsMachine, emittedDiag]

/-- The table of R36 is the transfer's target, or the Fetcher's default. -/
theorem nextPc_eq (s : State) (i : Instr) : nextPc s i = (transferTarget s i).getD (s.cur.pc + 4#32) := by
  cases i with
  | bne rs1 rs2 imm => simp only [nextPc, transferTarget]; split <;> rfl
  | _ => rfl

/-- Only an instruction that halts the machine emits a diagnostic (R55). -/
theorem emittedDiag_of_not_halts {i : Instr} (h : haltsMachine i = false) (s : State) : emittedDiag s i = none := by
  cases i with
  | unsupported ir => cases h
  | _ => rfl

/-- A store keeps memory in canonical form. -/
theorem memAfter_wf {m : Memory} (h : Memory.wf m = true) (o : Option (Word × Word)) :
    Memory.wf (memAfter m o) = true := by
  cases o with
  | none => exact h
  | some q => exact Memory.setWord_wf q.1 q.2 h

end Sys2Proof.Machine
end

section
/-!
The cycle of a fetched word (R140, R154): what one pass of the driver's loop leaves, field by field.
-/

namespace Sys2Proof.Machine

@[simp] theorem transferTarget_fetched (s : State) (ir : Word) (i : Instr) :
    transferTarget (fetched s ir) i = transferTarget s i := by
  cases i <;> rfl

@[simp] theorem regAfter_fetched (s : State) (ir : Word) (r : Reg) (i : Instr) :
    regAfter (fetched s ir) r i = regAfter s r i := by
  cases i <;> rfl

@[simp] theorem emittedDiag_fetched (s : State) (ir : Word) (i : Instr) :
    emittedDiag (fetched s ir) i = emittedDiag s i := by
  cases i <;> rfl

/-- What the cycle that fetches `ir` in `s` leaves in `t`. -/
structure Cycle (s : State) (ir : Word) (t : State) : Prop where
  pc : t.cur.pc = nextPc s (decodeWord ir)
  regs : ∀ r : Reg, readReg t r = if r = 0#5 then 0#32 else regAfter s r (decodeWord ir)
  nxt : t.nxt = t.cur
  run : t.run = !haltsMachine (decodeWord ir)
  mem : t.mem = memAfter s.mem (storeOf s (decodeWord ir))
  served : t.served = s.served
  phase : t.phase = .idle
  diag : t.diag = emittedDiag s (decodeWord ir)
  bus : t.bus = .readWord s.cur.pc ir :: writeRequests (storeOf s (decodeWord ir))

/-- The word a step fetches is the one at the pc. -/
theorem Fetches.unique {s : State} {ir w : Word} (h : Fetches s ir) (h' : Fetches s w) : ir = w :=
  Except.ok.inj (h.2.symm.trans h'.2)

/-- A cycle that answers a next state fetched a word, and its Executor answered the state before the commit. -/
theorem step_next_inv {s t : State} (h : step s = .next t) :
    ∃ ir u, Fetches s ir ∧ exec (decodeWord ir) (fetched s ir) = .next u ∧
      t = { u with cur := u.nxt, phase := .idle } := by
  obtain ⟨u, hcore, hcommit⟩ := step_next.1 h
  obtain ⟨ir, hf, hx⟩ := coreStep_next.1 hcore
  exact ⟨ir, u, hf, hx, (commit_next.1 hcommit).2⟩

/-- Every cycle that answers a next state is the cycle of the word it fetched. -/
theorem cycle_of_step_next {s t : State} (h : step s = .next t) : ∃ ir, Fetches s ir ∧ Cycle s ir t := by
  obtain ⟨ir, u, hf, hx, rfl⟩ := step_next_inv h
  obtain ⟨-, hserved, -⟩ := exec_next_frame hx
  have c := completion_of_exec_next hx
  refine ⟨ir, hf, ⟨?_, fun r => ?_, rfl, ?_, ?_, hserved, rfl, ?_, ?_⟩⟩
  · simpa [nextPc_eq] using c.pc
  · rw [← regAfter_fetched s ir]; exact c.regs r
  · simpa [hf.1.1] using c.run
  · simpa using c.mem
  · simpa using c.diag
  · simpa using c.bus

theorem Fetches.cycle {s t : State} {ir : Word} (hf : Fetches s ir) (h : step s = .next t) : Cycle s ir t := by
  obtain ⟨w, hw, c⟩ := cycle_of_step_next h
  exact hf.unique hw ▸ c

/-- A cycle keeps the invariant: register 0 is forced (R149), a store keeps memory canonical, the commit is made, and a
diagnostic comes only with a halt (R55). -/
theorem Cycle.inv {s t : State} {ir : Word} (c : Cycle s ir t) (h : Memory.wf s.mem = true) : Inv t := by
  refine ⟨c.regs 0#5, ?_, c.phase, fun hrun => ?_⟩
  · rw [c.mem]; exact memAfter_wf h _
  · have hgo : haltsMachine (decodeWord ir) = false := by simpa [c.run] using hrun
    rw [c.diag, emittedDiag_of_not_halts hgo]

/-- Settles O53: the cycle's effect meets every clause of the invariant; of the state before, only the canonical form of
memory is needed. -/
theorem everyCycleKeepsTheInvariant : Obligations.EveryCycleKeepsTheInvariant := by
  rintro s t ⟨-, hwf, -, -⟩ h
  obtain ⟨ir, -, c⟩ := cycle_of_step_next h
  exact c.inv hwf

/-- A run of `k + 1` cycles that answers a state is a cycle that answers one, then a run of `k` from there. -/
theorem run_succ_next {k : Nat} {s t : State} : Host.Core.run Sys2Proof.core (k + 1) s = .next t ↔
    ∃ u, step s = .next u ∧ Host.Core.run Sys2Proof.core k u = .next t := by
  rw [run_succ]
  cases step s <;> simp

/-- Settles O54, by induction on the length of the run: each cycle keeps the invariant and `MemValid` and ends with the
commit, which makes the copies equal. -/
theorem everyRunKeepsTheInvariant : Obligations.EveryRunKeepsTheInvariant := by
  intro k
  induction k with
  | zero =>
    intro s t hinv hrun
    cases hrun
    exact ⟨hinv, rfl, fun h => absurd h (Nat.lt_irrefl 0)⟩
  | succ k ih =>
    intro s t hinv hrun
    obtain ⟨u, hstep, hrest⟩ := run_succ_next.1 hrun
    obtain ⟨ir, -, c⟩ := cycle_of_step_next hstep
    obtain ⟨hinv', hserved, hcopies⟩ := ih u t (everyCycleKeepsTheInvariant s u hinv hstep) hrest
    refine ⟨hinv', hserved.trans c.served, fun _ => ?_⟩
    cases k with
    | zero => cases hrest; exact c.nxt
    | succ k => exact hcopies k.succ_pos

end Sys2Proof.Machine
end

section
/-!
How an instruction can end (R21, R254, R255): the fault of a refused store is the only end besides a next state.
-/

namespace Sys2Proof.Machine

/-- Only a store has an address to be refused: an instruction that makes one is an SW (R76). -/
theorem eq_sw_of_storeOf {i : Instr} {s : State} {q : Word × Word} (h : storeOf s i = some q) :
    ∃ rs1 rs2 imm, i = .sw rs1 rs2 imm ∧ q = (storeAddress s rs1 imm, readReg s rs2) := by
  cases i with
  | sw rs1 rs2 imm => exact ⟨rs1, rs2, imm, rfl, (Option.some.inj h).symm⟩
  | _ => cases h

/-- An instruction faults exactly when the provider's test refuses the store it makes. -/
theorem exec_fault {i : Instr} {s : State} {f : Fault} : exec i s = .fault f ↔ ∃ a v, storeOf s i = some (a, v) ∧
    ((checkAccess s a = .error .misaligned ∧ f = .storeMisaligned a (refusedWrite s a v)) ∨
     (checkAccess s a = .error .notServed ∧ f = .storeAccess a (refusedWrite s a v))) := by
  cases hs : storeOf s i with
  | none =>
    obtain ⟨t, ht⟩ := exec_next_of_storeOf_none hs
    simp [ht]
  | some q =>
    obtain ⟨rs1, rs2, imm, rfl, rfl⟩ := eq_sw_of_storeOf hs
    simp [exec_sw_fault]

/-- No instruction is refused. -/
theorem exec_not_refused {i : Instr} {s : State} {r : Refusal} : exec i s ≠ .refused r := by
  cases hs : storeOf s i with
  | none =>
    obtain ⟨t, ht⟩ := exec_next_of_storeOf_none hs
    simp [ht]
  | some q =>
    obtain ⟨rs1, rs2, imm, rfl, -⟩ := eq_sw_of_storeOf hs
    rw [exec_sw, Ne, executor_refused]
    exact storeWordArm_not_refused

end Sys2Proof.Machine
end

section
/-!
What has no influence on an instruction: the registers it does not name as sources (R33), and the old next copy (R39).
-/

namespace Sys2Proof.Machine

/-- Two states with the same pc whose registers agree on the sources of `i`. -/
structure AgreeOnSources (i : Instr) (s u : State) : Prop where
  pc : s.cur.pc = u.cur.pc
  regs : ∀ r ∈ sourcesOf i, readReg s r = readReg u r

section
variable {i : Instr} {s u : State}

theorem agreeOnSources_of_cur_eq (h : s.cur = u.cur) : AgreeOnSources i s u :=
  ⟨congrArg Arch.pc h, fun r _ => by unfold readReg; rw [h]⟩

/-- An instruction transfers to the same target from states that agree on its sources. -/
theorem AgreeOnSources.transferTarget_eq (h : AgreeOnSources i s u) : transferTarget s i = transferTarget u i := by
  obtain ⟨hpc, hregs⟩ := h
  cases i with
  | bne rs1 rs2 imm =>
    simp only [transferTarget, hpc, hregs rs1 (by simp [sourcesOf]), hregs rs2 (by simp [sourcesOf])]
  | jal rd imm => simp only [transferTarget, hpc]
  | _ => rfl

theorem AgreeOnSources.storeOf_eq (h : AgreeOnSources i s u) : storeOf s i = storeOf u i := by
  obtain ⟨-, hregs⟩ := h
  cases i with
  | sw rs1 rs2 imm =>
    simp only [storeOf, storeAddress, hregs rs1 (by simp [sourcesOf]), hregs rs2 (by simp [sourcesOf])]
  | _ => rfl

theorem AgreeOnSources.emittedDiag_eq (h : AgreeOnSources i s u) : emittedDiag s i = emittedDiag u i := by
  cases i with
  | unsupported ir => simp only [emittedDiag, h.pc]
  | _ => rfl

/-- The value an instruction writes to its destination depends on the pc and its sources alone (R33). -/
theorem AgreeOnSources.regAfter_eq (h : AgreeOnSources i s u) {r : Reg} (hr : destOf i = some r) :
    regAfter s r i = regAfter u r i := by
  obtain ⟨hpc, hregs⟩ := h
  cases i with
  | add rd rs1 rs2 =>
    cases hr
    simp only [regAfter, hregs rs1 (by simp [sourcesOf]), hregs rs2 (by simp [sourcesOf]), if_pos]
  | slt rd rs1 rs2 =>
    cases hr
    simp only [regAfter, hregs rs1 (by simp [sourcesOf]), hregs rs2 (by simp [sourcesOf]), if_pos]
  | addi rd rs1 imm =>
    cases hr
    simp only [regAfter, hregs rs1 (by simp [sourcesOf]), if_pos]
  | slli rd rs1 imm =>
    cases hr
    simp only [regAfter, hregs rs1 (by simp [sourcesOf]), if_pos]
  | auipc rd imm =>
    cases hr
    simp only [regAfter, pcRelative, hpc, if_pos]
  | jal rd imm =>
    cases hr
    simp only [regAfter, linkValue, hpc, if_pos]
  | _ => cases hr

/-- An instruction faults alike on states that agree on its sources, on memory, on `MemValid` and on the requests made. -/
theorem AgreeOnSources.exec_fault_iff (h : AgreeOnSources i s u) (hmem : s.mem = u.mem) (hserved : s.served = u.served)
    (hbus : s.bus = u.bus) {f : Fault} : exec i s = .fault f ↔ exec i u = .fault f := by
  simp only [exec_fault, h.storeOf_eq, checkAccess_congr hserved, refusedWrite, aftermath, hmem, hserved, hbus]

end

/-- A register other than the destination keeps its value (R33). -/
theorem regAfter_of_not_dest {i : Instr} {s : State} {r : Reg} (h : destOf i ≠ some r) :
    regAfter s r i = readReg s r := by
  cases i with
  | add rd _ _ => exact if_neg fun e => h (congrArg some e.symm)
  | slt rd _ _ => exact if_neg fun e => h (congrArg some e.symm)
  | addi rd _ _ => exact if_neg fun e => h (congrArg some e.symm)
  | slli rd _ _ => exact if_neg fun e => h (congrArg some e.symm)
  | auipc rd _ => exact if_neg fun e => h (congrArg some e.symm)
  | jal rd _ => exact if_neg fun e => h (congrArg some e.symm)
  | _ => rfl

/-- Settles O25: the instruction faults on both states or on neither, and what it completes with is made of its sources, the
pc and what the two states share. -/
theorem unnamedSourcesDoNotMatter : Obligations.UnnamedSourcesDoNotMatter := by
  intro i s x hx
  have agree : AgreeOnSources i s { s with cur := ⟨s.cur.pc, x⟩ } := ⟨rfl, fun r hr => (hx r hr).symm⟩
  have hfault {f : Fault} : exec i s = .fault f ↔ exec i { s with cur := ⟨s.cur.pc, x⟩ } = .fault f :=
    agree.exec_fault_iff rfl rfl rfl
  cases h : exec i s with
  | refused r => exact exec_not_refused h
  | fault f => simp [hfault.1 h]
  | next t =>
    cases h' : exec i { s with cur := ⟨s.cur.pc, x⟩ } with
    | refused r => exact exec_not_refused h'
    | fault f => exact absurd (h.symm.trans (hfault.2 h')) (by simp)
    | next u =>
      have c := completion_of_exec_next h
      have c' := completion_of_exec_next h'
      refine ⟨?_, ?_, ?_, c.run.trans c'.run.symm, ?_, fun r hr => ?_⟩
      · rw [c.pc, c'.pc, agree.transferTarget_eq]
      · rw [c.mem, c'.mem, agree.storeOf_eq]
      · rw [c.bus, c'.bus, agree.storeOf_eq]
      · rw [c.diag, c'.diag, agree.emittedDiag_eq]
      · rw [c.regs, c'.regs, agree.regAfter_eq hr]

/-- The Executor begins with the register copy, so a copy made before it changes nothing (R146). -/
theorem exec_copyRegs (i : Instr) (s : State) : exec i (copyRegs s) = exec i s := by
  cases i <;> rfl

/-- The register copy wipes what the Fetcher leaves of the old next registers, and the Fetcher the rest (R141, R146). -/
theorem copyRegs_fetched_with_nxt (s : State) (ir : Word) (n : Arch) (d : Option Diag) (b : List Request) :
    copyRegs (fetched { s with nxt := n, diag := d, bus := b } ir) = copyRegs (fetched s ir) := rfl

/-- The Fetcher reads nothing of the old next copy, diagnostic or requests, and a fault leaves nothing of them. -/
theorem coreStep_with_nxt (s : State) (n : Arch) (d : Option Diag) (b : List Request) :
    coreStep { s with nxt := n, diag := d, bus := b } = coreStep s := by
  have hexec (ir : Word) : exec (decodeWord ir) (fetched { s with nxt := n, diag := d, bus := b } ir) =
      exec (decodeWord ir) (fetched s ir) := by
    rw [← exec_copyRegs, copyRegs_fetched_with_nxt, exec_copyRegs]
  have hreject : rejectStep { s with nxt := n, diag := d, bus := b } = rejectStep s := rfl
  have hread : memRead { s with nxt := n, diag := d, bus := b } s.cur.pc = memRead s s.cur.pc := rfl
  unfold coreStep fetch
  rw [hreject, hread]
  cases rejectStep s with
  | some r => rfl
  | none =>
    cases memRead s s.cur.pc with
    | ok ir => exact hexec ir
    | error e => cases e <;> rfl

/-- Two states with the same current copy, executing the same word after its fetch, end with the same next copy (R39). -/
theorem nxt_eq_of_cur_eq {i : Instr} {s u t v : State} (hcur : s.cur = u.cur) (hpc : s.nxt.pc = u.nxt.pc)
    (ht : exec i s = .next t) (hv : exec i u = .next v) : t.nxt = v.nxt := by
  have agree : AgreeOnSources i s u := agreeOnSources_of_cur_eq hcur
  have c := completion_of_exec_next ht
  have c' := completion_of_exec_next hv
  have hregs : t.nxt.x = v.nxt.x := by
    refine regs_ext fun r => ?_
    have hafter : regAfter s r i = regAfter u r i := by
      by_cases hr : destOf i = some r
      · exact agree.regAfter_eq hr
      · rw [regAfter_of_not_dest hr, regAfter_of_not_dest hr, readReg, readReg]; simp only [hcur]
    exact (c.regs r).trans (hafter ▸ (c'.regs r).symm)
  have hpc' : t.nxt.pc = v.nxt.pc := by rw [c.pc, c'.pc, agree.transferTarget_eq, hpc]
  exact congrArg₂ Arch.mk hpc' hregs

/-- A step never writes the current copy (R39). -/
theorem coreStep_next_cur {s t : State} (h : coreStep s = .next t) : t.cur = s.cur := by
  obtain ⟨ir, -, hx⟩ := coreStep_next.1 h
  exact (exec_next_frame hx).1

/-- Settles O27: the Fetcher overwrites the next pc, the Executor's register copy the next registers, and what a completed
instruction leaves in the next copy is made of the current copy. -/
theorem oldNextStateDoesNotMatter : Obligations.OldNextStateDoesNotMatter := by
  refine ⟨coreStep_with_nxt, fun _ _ => coreStep_next_cur, fun s u t v ir hs hu hcur ht hv => ?_⟩
  obtain ⟨a, ha, hxt⟩ := coreStep_next.1 ht
  obtain ⟨b, hb, hxv⟩ := coreStep_next.1 hv
  cases hs.unique ha
  cases hu.unique hb
  exact nxt_eq_of_cur_eq (s := fetched s ir) (u := fetched u ir) hcur (by simp [hcur]) hxt hxv

end Sys2Proof.Machine
end

section
/-!
How a cycle stops: what a fault leaves (R250, R256), and which requests of the driver are refused (R42, R53, R305).
-/

namespace Sys2Proof.Machine

/-- The commit is accepted after every step that answers a state, the halting one too (R40, D12). -/
theorem commit_of_coreStep_next {s t : State} (h : coreStep s = .next t) :
    commit t = .next { t with cur := t.nxt, phase := .idle } := by
  obtain ⟨ir, -, hx⟩ := coreStep_next.1 h
  obtain ⟨-, -, hphase⟩ := exec_next_frame hx
  exact commit_next.2 ⟨hphase.trans (fetched_phase s ir), rfl⟩

/-- A cycle faults exactly when its step does: no commit faults. -/
theorem step_fault {s : State} {f : Fault} : step s = .fault f ↔ coreStep s = .fault f := by
  unfold step
  cases h : coreStep s with
  | next t => simp [commit_of_coreStep_next h]
  | fault g => rfl
  | refused r => rfl

/-- A cycle is refused exactly when its step is: the commit after a step never is. -/
theorem step_refused {s : State} {r : Refusal} : step s = .refused r ↔ coreStep s = .refused r := by
  unfold step
  cases h : coreStep s with
  | next t => simp [commit_of_coreStep_next h]
  | fault g => rfl
  | refused q => rfl

/-- A step is refused exactly where the driver may not ask for it; no instruction is. -/
theorem coreStep_refused {s : State} {r : Refusal} : coreStep s = .refused r ↔ rejectStep s = some r := by
  unfold coreStep
  cases rejectStep s with
  | some q => simp
  | none =>
    cases fetch s with
    | error f => simp
    | ok p => simp [exec_not_refused]

/-- Settles O33: a cycle is refused when its step is, and a step only under the conditions of R52. -/
theorem onlyTheDriverIsRefused : Obligations.OnlyTheDriverIsRefused := fun _ _ =>
  step_refused.trans (coreStep_refused.trans rejectStep_some)

/-- A cycle that faults did so at its fetch, or at the store of the word it fetched (R253, R254). -/
theorem step_fault_cases {s : State} {f : Fault} (h : step s = .fault f) :
    fetch s = .error f ∨ ∃ ir, Fetches s ir ∧ exec (decodeWord ir) (fetched s ir) = .fault f :=
  (coreStep_fault.1 (step_fault.1 h)).2

/-- Settles O32: each of the four faults carries the state's memory and `MemValid`, and the requests made up to it. -/
theorem faultsLeaveMemoryAndTheRequests : Obligations.FaultsLeaveMemoryAndTheRequests := by
  intro s f h
  rcases step_fault_cases h with hfetch | ⟨ir, hf, hx⟩
  · rcases fetch_error.1 hfetch with ⟨-, rfl⟩ | ⟨-, rfl⟩ <;>
      simp [Fault.left, Fault.code, Fault.addr]
  · obtain ⟨a, v, hstore, hfault⟩ := exec_fault.1 hx
    rw [storeOf_fetched] at hstore
    rcases hfault with ⟨-, rfl⟩ | ⟨-, rfl⟩ <;>
      simp [Fault.left, Fault.code, Fault.addr, hf, hstore]

/-- An accepted step at a misaligned pc faults at its fetch, whatever is served (R78, R253). -/
theorem step_fetchMisaligned {s : State} (ha : Accepts s) (h : s.cur.pc.toNat % 4 ≠ 0) :
    step s = .fault (.fetchMisaligned s.cur.pc ⟨s.mem, s.served, [.readRefused s.cur.pc]⟩) :=
  step_fault.2 (coreStep_fault.2 ⟨ha, .inl (fetch_error.2 (.inl ⟨checkAccess_misaligned.2 h, rfl⟩))⟩)

/-- An accepted step at an aligned pc that is not served faults at its fetch (R80, R253). -/
theorem step_fetchAccess {s : State} (ha : Accepts s) (h : s.cur.pc.toNat % 4 = 0)
    (hserved : memValid s.served s.cur.pc = false) :
    step s = .fault (.fetchAccess s.cur.pc ⟨s.mem, s.served, [.readRefused s.cur.pc]⟩) :=
  step_fault.2 (coreStep_fault.2 ⟨ha, .inl (fetch_error.2 (.inr ⟨checkAccess_notServed.2 ⟨h, hserved⟩, rfl⟩))⟩)

/-- Settles O43: the commit's own equation, and its acceptance after every step that answers a state. -/
theorem commitCopiesNextIntoCurrent : Obligations.CommitCopiesNextIntoCurrent :=
  ⟨fun _ hs => commit_next.2 ⟨hs, rfl⟩, fun _ _ h => ⟨coreStep_next_cur h, commit_of_coreStep_next h⟩⟩

/-- With no step in flight a commit is refused (R53). -/
theorem commit_idle {s : State} (h : s.phase = .idle) : commit s = .refused .commitBeforeStep := by
  simp [commit, h]

/-- Settles O44: a launch owes no commit, and a commit leaves none owed. -/
theorem commitNeedsAStep : Obligations.CommitNeedsAStep := by
  refine ⟨fun l => commit_idle rfl, fun s t h => ?_⟩
  obtain ⟨-, rfl⟩ := commit_next.1 h
  exact commit_idle rfl

end Sys2Proof.Machine
end

section
/-!
Reset (R56, R57, R292): the reset table, the values State.reset takes for it, and the invariant at the start.
-/

namespace Sys2Proof.Machine

/-- The registers after a reset are x0, zero, and then `INIT_REGS` (R57). -/
theorem launch_regs_succ (l : Launch) (k : Fin 31) : l.regs[k.val + 1] = l.initRegs[k.val] := by
  simp [Launch.regs]

/-- Settles O45, row by row of the reset table. -/
theorem launchSetsTheResetTable : Obligations.LaunchSetsTheResetTable := fun l =>
  ⟨rfl, rfl, rfl, launch_regs_succ l, rfl, rfl, rfl, rfl, rfl⟩

/-- The reset state starts in the invariant when memory is canonical (R32, R57, R292). -/
theorem resetWith_inv (l : Launch) {m : Memory} (h : Memory.wf m = true) (served : List Region) :
    Inv (resetWith l m served) :=
  ⟨rfl, h, rfl, fun _ => rfl⟩

/-- Settles O52: State.reset is the reset state with nothing listed in memory. -/
theorem resetMeetsTheInvariant : Obligations.ResetMeetsTheInvariant :=
  resetWith_inv Launch.plain (m := []) rfl Config.served

/-- Settles O47: outside a cycle of a running machine the reset input is accepted. -/
theorem resetInputKeepsMemory : Obligations.ResetInputKeepsMemory := by
  intro l s hs
  refine resetInput_next.2 ⟨?_, rfl⟩
  rintro ⟨hrun, hphase⟩
  rcases hs with h | h
  · simp [h] at hrun
  · simp [h] at hphase

/-- Settles O48: a fault carries memory and `MemValid` as before the cycle (O32), and reset keeps both. -/
theorem resetAfterAFaultKeepsMemory : Obligations.ResetAfterAFaultKeepsMemory := by
  intro l s f h
  obtain ⟨hmem, hserved, -⟩ := faultsLeaveMemoryAndTheRequests s f h
  have hreset : resetAfterFault l f = resetWith l s.mem s.served := by rw [resetAfterFault, hmem, hserved]
  exact ⟨hreset, fun hwf => hreset ▸ resetWith_inv l hwf s.served⟩

/-- By the model's choice every register of State.reset starts at zero (log entry 2). -/
theorem plain_regs : Launch.plain.regs = Vector.replicate 32 0#32 := rfl

/-- By the model's choice State.reset serves every aligned word: none of them reaches past the address space (log
entry 5, R81). -/
theorem reset_serves {a : Word} (h : a.toNat % 4 = 0) : Serves State.reset a := by
  have hlt := a.isLt
  have hend : a.toNat + 4 ≤ 4294967296 := by omega
  exact ⟨h, by simpa [State.reset, State.launch, Launch.plain, Config.served, memValid, regionServes] using hend⟩

/-- Settles O46: each open parameter at its logged value. -/
theorem resetTakesTheLoggedValues : Obligations.ResetTakesTheLoggedValues := by
  refine ⟨rfl, rfl, fun r => ?_, rfl, fun r => ?_, rfl, fun _ => rfl, fun _ h => reset_serves h⟩
  · show Launch.plain.regs[r.toNat]'r.isLt = 0#32
    simp [plain_regs]
  · show (Vector.replicate 32 0#32)[r.toNat]'r.isLt = 0#32
    simp

end Sys2Proof.Machine
end

section
/-!
The decoder against the opcode table (R118, R119): the mnemonic of a decoded word is the table's; and what the decoder gives
HALT, UNSUPPORTED, BNE and JAL.
-/

namespace Sys2Proof

/-- The mnemonic that a list of rows gives a word: the first row's if it covers the word, else the other rows'. -/
theorem rowsMnemonic_cons (r : OpcodeRow) (rows : List OpcodeRow) (w : Word) (d : String) :
    (((r :: rows).find? (·.covers w)).map OpcodeRow.mnemonic).getD d =
      if w &&& r.mask = r.value then r.mnemonic else ((rows.find? (·.covers w)).map OpcodeRow.mnemonic).getD d := by
  by_cases h : w &&& r.mask = r.value <;> simp [OpcodeRow.covers, h]

/-- The opcode table of R119 as tests of the fields its masks examine, row after row. -/
theorem tableMnemonic_eq (w : Word) : tableMnemonic w =
    if w = 0#32 then "HALT"
    else if fieldOpcode w = 0x33#7 ∧ fieldFunct3 w = 0#3 ∧ fieldFunct7 w = 0#7 then "ADD"
    else if fieldOpcode w = 0x33#7 ∧ fieldFunct3 w = 2#3 ∧ fieldFunct7 w = 0#7 then "SLT"
    else if fieldOpcode w = 0x13#7 ∧ fieldFunct3 w = 0#3 then "ADDI"
    else if fieldOpcode w = 0x13#7 ∧ fieldFunct3 w = 1#3 then "SLLI"
    else if fieldOpcode w = 0x23#7 then "SW"
    else if fieldOpcode w = 0x63#7 then "BNE"
    else if fieldOpcode w = 0x17#7 then "AUIPC"
    else if fieldOpcode w = 0x6F#7 then "JAL"
    else "UNSUPPORTED" := by
  have halt : w &&& 0xFFFFFFFF#32 = 0x00000000#32 ↔ w = 0#32 := by
    rw [show 0xFFFFFFFF#32 = BitVec.allOnes 32 from rfl, BitVec.and_allOnes]
  have add : w &&& 0xFE00707F#32 = 0x00000033#32 ↔
      fieldOpcode w = 0x33#7 ∧ fieldFunct3 w = 0#3 ∧ fieldFunct7 w = 0#7 := opcode_funct37_row (by decide)
  have slt : w &&& 0xFE00707F#32 = 0x00002033#32 ↔
      fieldOpcode w = 0x33#7 ∧ fieldFunct3 w = 2#3 ∧ fieldFunct7 w = 0#7 := opcode_funct37_row (by decide)
  have addi : w &&& 0x0000707F#32 = 0x00000013#32 ↔ fieldOpcode w = 0x13#7 ∧ fieldFunct3 w = 0#3 :=
    opcode_funct3_row (by decide)
  have slli : w &&& 0x0000707F#32 = 0x00001013#32 ↔ fieldOpcode w = 0x13#7 ∧ fieldFunct3 w = 1#3 :=
    opcode_funct3_row (by decide)
  have sw : w &&& 0x0000007F#32 = 0x00000023#32 ↔ fieldOpcode w = 0x23#7 := opcode_row (by decide)
  have bne : w &&& 0x0000007F#32 = 0x00000063#32 ↔ fieldOpcode w = 0x63#7 := opcode_row (by decide)
  have auipc : w &&& 0x0000007F#32 = 0x00000017#32 ↔ fieldOpcode w = 0x17#7 := opcode_row (by decide)
  have jal : w &&& 0x0000007F#32 = 0x0000006F#32 ↔ fieldOpcode w = 0x6F#7 := opcode_row (by decide)
  simp only [tableMnemonic, opcodeRows, rowsMnemonic_cons, halt, add, slt, addi, slli, sw, bne, auipc, jal]
  rfl

theorem mnemonic_decodeRegReg (w : Word) : (decodeRegReg w).mnemonic =
    if fieldFunct3 w = 0#3 ∧ fieldFunct7 w = 0#7 then "ADD"
    else if fieldFunct3 w = 2#3 ∧ fieldFunct7 w = 0#7 then "SLT" else "UNSUPPORTED" := by
  unfold decodeRegReg
  simp only [and_comm (a := fieldFunct7 w = 0#7)]
  split_ifs <;> rfl

theorem mnemonic_decodeRegImm (w : Word) : (decodeRegImm w).mnemonic =
    if fieldFunct3 w = 0#3 then "ADDI" else if fieldFunct3 w = 1#3 then "SLLI" else "UNSUPPORTED" := by
  unfold decodeRegImm
  split_ifs <;> rfl

/-- Decoding a word gives the instruction whose row of the opcode table covers it (R118, R119). -/
theorem mnemonic_decodeWord (w : Word) : (decodeWord w).mnemonic = tableMnemonic w := by
  rw [tableMnemonic_eq]
  unfold decodeWord
  by_cases h0 : w = 0#32
  · rw [if_pos h0, if_pos h0]; rfl
  rw [if_neg h0, if_neg h0]
  by_cases h33 : fieldOpcode w = 0x33#7
  · simp [h33, mnemonic_decodeRegReg]
  by_cases h13 : fieldOpcode w = 0x13#7
  · simp [h13, mnemonic_decodeRegImm]
  simp only [h33, h13, false_and, if_false]
  split_ifs <;> rfl

/-- The mnemonic UNSUPPORTED is that of the default instruction alone. -/
theorem Instr.mnemonic_eq_unsupported {i : Instr} : i.mnemonic = "UNSUPPORTED" ↔ ∃ ir, i = .unsupported ir := by
  cases i <;> simp [Instr.mnemonic]

/-- An unsupported instruction carries the word it was decoded from (R233). -/
theorem eq_of_decodeWord_unsupported {w ir : Word} (h : decodeWord w = .unsupported ir) : ir = w := by
  unfold decodeWord decodeRegReg decodeRegImm at h
  split_ifs at h <;> cases h <;> rfl

/-- A word is in the table's default row exactly when it decodes to the unsupported instruction of it. -/
theorem tableMnemonic_eq_unsupported {w : Word} : tableMnemonic w = "UNSUPPORTED" ↔ decodeWord w = .unsupported w := by
  rw [← mnemonic_decodeWord, Instr.mnemonic_eq_unsupported]
  constructor
  · rintro ⟨ir, h⟩
    rw [h, eq_of_decodeWord_unsupported h]
  · exact fun h => ⟨w, h⟩

/-- Only the zero word is HALT (R230). -/
theorem decodeWord_eq_halt {w : Word} : decodeWord w = .halt ↔ w = 0#32 := by
  constructor
  · intro h
    by_contra h0
    unfold decodeWord decodeRegReg decodeRegImm at h
    split_ifs at h
  · rintro rfl; rfl

theorem imm_of_decodeWord_bne {w imm : Word} {rs1 rs2 : Reg} (h : decodeWord w = .bne rs1 rs2 imm) : imm = immB w := by
  unfold decodeWord decodeRegReg decodeRegImm at h
  split_ifs at h
  cases h
  rfl

theorem imm_of_decodeWord_jal {w imm : Word} {rd : Reg} (h : decodeWord w = .jal rd imm) : imm = immJ w := by
  unfold decodeWord decodeRegReg decodeRegImm at h
  split_ifs at h
  cases h
  rfl

/-- A Word whose bit 0 is 0 is even. -/
theorem even_of_getLsbD_zero {v : Word} (h : v.getLsbD 0 = false) : v.toNat % 2 = 0 := by
  simpa [BitVec.getLsbD, Nat.testBit_zero] using h

/-- A branch offset is even: the format has no bit 0 (R112). -/
theorem immB_even (w : Word) : (immB w).toNat % 2 = 0 := by
  refine even_of_getLsbD_zero ?_
  rw [immB, getLsbD_sext _ 0 (by decide), if_pos (by decide), BitVec.getLsbD_append]
  rfl

/-- A jump offset is even: the format has no bit 0 (R114). -/
theorem immJ_even (w : Word) : (immJ w).toNat % 2 = 0 := by
  refine even_of_getLsbD_zero ?_
  rw [immJ, getLsbD_sext _ 0 (by decide), if_pos (by decide), BitVec.getLsbD_append]
  rfl

end Sys2Proof
end

section
/-!
Where a cycle leads (R36, R37, R202), and when the machine halts and emits its diagnostic (R42, R55).
-/

namespace Sys2Proof.Machine

/-- Settles O35: the pc of the cycle's effect. -/
theorem nextPcFollowsTheTable : Obligations.NextPcFollowsTheTable := fun _ _ _ hf h => (hf.cycle h).pc

/-- Only BNE and JAL transfer control (R202). -/
theorem nextPc_of_not_transfers {i : Instr} (h : transfersControl i = false) (s : State) :
    nextPc s i = s.cur.pc + 4#32 := by
  cases i with
  | bne _ _ _ => cases h
  | jal _ _ => cases h
  | _ => rfl

/-- From an aligned pc the default pc is aligned, also where it wraps. -/
theorem add_four_aligned {a : Word} (h : a.toNat % 4 = 0) : (a + 4#32).toNat % 4 = 0 := by
  rw [BitVec.toNat_add, BitVec.toNat_ofNat]
  omega

/-- An even offset keeps an even pc even, also where the sum wraps. -/
theorem add_even {a b : Word} (ha : a.toNat % 2 = 0) (hb : b.toNat % 2 = 0) : (a + b).toNat % 2 = 0 := by
  rw [BitVec.toNat_add]
  omega

/-- A decoded transfer leads from an even pc to an even pc: its offset is even (R37, R112, R114). -/
theorem nextPc_even_of_transfers {s : State} {ir : Word} (hpc : s.cur.pc.toNat % 2 = 0)
    (h : transfersControl (decodeWord ir) = true) : (nextPc s (decodeWord ir)).toNat % 2 = 0 := by
  cases hi : decodeWord ir with
  | bne rs1 rs2 imm =>
    rw [nextPc]
    split
    · exact add_even hpc (imm_of_decodeWord_bne hi ▸ immB_even ir)
    · exact add_even hpc rfl
  | jal rd imm => exact add_even hpc (imm_of_decodeWord_jal hi ▸ immJ_even ir)
  | _ => rw [hi] at h; cases h

/-- From an aligned pc a decoded word leads to an aligned pc, or by a transfer to one that is 2 modulo 4. -/
theorem nextPc_mod_four {s : State} {ir : Word} (hpc : s.cur.pc.toNat % 4 = 0) :
    (nextPc s (decodeWord ir)).toNat % 4 = 0 ∨
      ((nextPc s (decodeWord ir)).toNat % 4 = 2 ∧ transfersControl (decodeWord ir) = true) := by
  cases h : transfersControl (decodeWord ir) with
  | false => exact .inl (nextPc_of_not_transfers h s ▸ add_four_aligned hpc)
  | true =>
    have heven := nextPc_even_of_transfers (show s.cur.pc.toNat % 2 = 0 by omega) h
    exact Or.imp_right (⟨·, rfl⟩) (by omega)

/-- Settles O36: a fetched word has an aligned pc, so both clauses are about the pc the table gives from there. -/
theorem onlyTransfersMisalignThePc : Obligations.OnlyTransfersMisalignThePc := by
  intro s t ir hf h
  obtain ⟨⟨haligned, -⟩, -⟩ := memRead_ok.1 hf.2
  have hmod := nextPc_mod_four (ir := ir) haligned
  rw [(hf.cycle h).pc]
  exact ⟨fun _ => by omega, fun _ => hmod⟩

/-- A transfer stores nothing (R33, R76). -/
theorem storeOf_of_transfers {i : Instr} (h : transfersControl i = true) (s : State) : storeOf s i = none := by
  cases i with
  | sw _ _ _ => cases h
  | _ => rfl

/-- A transfer does not halt (R42, R202). -/
theorem not_haltsMachine_of_transfers {i : Instr} (h : transfersControl i = true) : haltsMachine i = false := by
  cases i with
  | halt => cases h
  | unsupported _ => cases h
  | _ => rfl

/-- Settles O37: the transfer completes with its target as the pc, still RUNNING and with memory as it was, so that the next
cycle is accepted and its fetch tests the target. -/
theorem transferTargetsAreTestedAtTheNextFetch : Obligations.TransferTargetsAreTestedAtTheNextFetch := by
  intro s ir hf htransfer
  have hstore := storeOf_of_transfers htransfer s
  obtain ⟨t, ht⟩ := fetchedNonStoresComplete s ir hf hstore
  have c := hf.cycle ht
  have hmem : t.mem = s.mem := by rw [c.mem, hstore, memAfter]
  have haccepts : Accepts t := ⟨by rw [c.run, not_haltsMachine_of_transfers htransfer]; rfl, c.phase⟩
  refine ⟨t, ht, c.pc, ?_, ?_⟩ <;> rw [← c.pc, ← hmem, ← c.served]
  · exact fun h => step_fetchMisaligned haccepts (by omega)
  · exact step_fetchAccess haccepts

/-- The decoded words that halt the machine: the zero word, and those of the table's default row (R42, R234). -/
theorem haltsMachine_decodeWord {ir : Word} :
    haltsMachine (decodeWord ir) = true ↔ ir = 0#32 ∨ tableMnemonic ir = "UNSUPPORTED" := by
  rw [tableMnemonic_eq_unsupported, ← decodeWord_eq_halt]
  cases hi : decodeWord ir with
  | halt => simp [haltsMachine]
  | unsupported w => simp [haltsMachine, eq_of_decodeWord_unsupported hi]
  | _ => simp [haltsMachine]

/-- From `run = 0` every step is refused (R42). -/
theorem coreStep_halted {s : State} (h : s.run = false) : coreStep s = .refused .halted :=
  coreStep_refused.2 (rejectStep_some.2 (.inl ⟨h, rfl⟩))

/-- Settles O38: a launch sets the flag, a cycle clears it exactly when its word halts the machine, and a step at `run = 0`
is refused. -/
theorem runFlagFollowsTheStateMachine : Obligations.RunFlagFollowsTheStateMachine := by
  refine ⟨fun l => rfl, fun s t ir hf h => ?_, fun s t h => ?_⟩
  · rw [(hf.cycle h).run, Bool.not_eq_false', haltsMachine_decodeWord]
  · simp [step_refused.2 (coreStep_halted h), coreStep_halted h]

/-- A decoded word emits a diagnostic, of the pc and itself, exactly when it is in the table's default row (R233). -/
theorem emittedDiag_decodeWord (s : State) (ir : Word) : emittedDiag s (decodeWord ir) =
    if tableMnemonic ir = "UNSUPPORTED" then some ⟨s.cur.pc, ir⟩ else none := by
  simp only [tableMnemonic_eq_unsupported]
  cases hi : decodeWord ir with
  | unsupported w => simp [emittedDiag, eq_of_decodeWord_unsupported hi]
  | _ => simp [emittedDiag]

/-- Settles O39: the diagnostic of the cycle's effect is the one the fetched word emits. -/
theorem diagnosticExactlyWhenUnsupported : Obligations.DiagnosticExactlyWhenUnsupported := by
  intro s t ir hf h
  rw [(hf.cycle h).diag, emittedDiag_decodeWord]

end Sys2Proof.Machine
end

section
/-!
The decoder on bytes (R74, R100): four bytes make an instruction, fewer are refused by name.
-/

namespace Sys2Proof

/-- The decoder refuses a list of bytes exactly when it is shorter than one instruction (R100). -/
theorem decode_truncated {bs : List Byte} : (∃ n, decode bs = .error (.truncated n)) ↔ bs.length < 4 := by
  match bs with
  | [] | [_] | [_, _] | [_, _, _] => simp [decode]
  | _ :: _ :: _ :: _ :: _ => simp [decode]

/-- Settles O8: the four bytes of a word, lowest first, make up the word again. -/
theorem decodeReadsFourBytes : Obligations.DecodeReadsFourBytes :=
  ⟨fun w rest => by rw [decode, Machine.wordOfBytes_byteOfWord], fun _ => decode_truncated⟩

end Sys2Proof
end

section
/-!
Aligned words of memory (R72 to R75): the bytes of a stored word, the frame of a store, and the word read back from the same
or from another aligned address; and the uniqueness of the canonical form.
-/

namespace Sys2Proof.Machine

/-- At an aligned address the Word is made of the four bytes from there up (R74, R81). -/
theorem Memory.wordAt_of_aligned (m : Memory) {a : Word} (ha : a.toNat % 4 = 0) : m.wordAt a =
    wordOfBytes (m.readByte a.toNat) (m.readByte (a.toNat + 1)) (m.readByte (a.toNat + 2)) (m.readByte (a.toNat + 3)) := by
  obtain ⟨h1, h2, h3⟩ := aligned_addresses ha
  rw [Memory.wordAt, h1, h2, h3]

section
variable {m : Memory} {a v : Word}

/-- The byte at offset `k` of a stored word is the word's byte `k` (R73). -/
theorem Memory.readByte_setWord_add (hm : Memory.wf m = true) (ha : a.toNat % 4 = 0) {k : Nat} (hk : k < 4) :
    Memory.readByte (m.setWord a v) (a.toNat + k) = byteOfWord v k := by
  rw [Memory.readByte_setWord hm ha]
  interval_cases k <;> simp

/-- A store changes no byte outside the word it stores (R73). -/
theorem Memory.readByte_setWord_outside (hm : Memory.wf m = true) (ha : a.toNat % 4 = 0) {b : Nat} (hb : ¬ InWord a b) :
    Memory.readByte (m.setWord a v) b = Memory.readByte m b := by
  unfold InWord at hb
  rw [Memory.readByte_setWord hm ha, if_neg (by omega), if_neg (by omega), if_neg (by omega), if_neg (by omega)]

/-- The word stored at an aligned address is the word read there. -/
theorem Memory.wordAt_setWord_same (hm : Memory.wf m = true) (ha : a.toNat % 4 = 0) : (m.setWord a v).wordAt a = v := by
  have hbyte {k : Nat} (hk : k < 4) := Memory.readByte_setWord_add (v := v) hm ha hk
  have hlow : Memory.readByte (m.setWord a v) a.toNat = byteOfWord v 0 := hbyte (k := 0) (by decide)
  rw [Memory.wordAt_of_aligned _ ha, hlow, hbyte (by decide), hbyte (by decide), hbyte (by decide)]
  exact wordOfBytes_byteOfWord v

/-- Two aligned words coincide or are disjoint (R75). -/
theorem not_inWord_of_aligned_ne {c : Word} (ha : a.toNat % 4 = 0) (hc : c.toNat % 4 = 0) (hne : c ≠ a) {b : Nat}
    (hb : InWord c b) : ¬ InWord a b := by
  have : c.toNat ≠ a.toNat := fun h => hne (BitVec.eq_of_toNat_eq h)
  unfold InWord at hb ⊢
  omega

/-- A store leaves the word at every other aligned address as it was (R75). -/
theorem Memory.wordAt_setWord_other {c : Word} (hm : Memory.wf m = true) (ha : a.toNat % 4 = 0) (hc : c.toNat % 4 = 0)
    (hne : c ≠ a) : (m.setWord a v).wordAt c = m.wordAt c := by
  have hbyte {k : Nat} (hk : k < 4) :
      Memory.readByte (m.setWord a v) (c.toNat + k) = Memory.readByte m (c.toNat + k) :=
    Memory.readByte_setWord_outside hm ha (not_inWord_of_aligned_ne ha hc hne ⟨by omega, by omega⟩)
  have hlow : Memory.readByte (m.setWord a v) c.toNat = Memory.readByte m c.toNat := hbyte (k := 0) (by decide)
  rw [Memory.wordAt_of_aligned _ hc, Memory.wordAt_of_aligned _ hc, hlow, hbyte (by decide), hbyte (by decide),
    hbyte (by decide)]

end

/-- MemRead depends on `MemValid` and on the word at its address alone. -/
theorem memRead_congr {s t : State} {a : Word} (hserved : s.served = t.served) (hword : s.mem.wordAt a = t.mem.wordAt a) :
    memRead s a = memRead t a := by
  rw [memRead, memRead, checkAccess_congr hserved, hword]

/-- Settles O9: the provider's test in its three cases, and the Word of four consecutive bytes. -/
theorem memReadAnswers : Obligations.MemReadAnswers := by
  intro s a
  refine ⟨fun h => ?_, fun h hv => ?_, fun h hv => ?_⟩
  · exact memRead_error.2 (checkAccess_misaligned.2 h)
  · exact memRead_error.2 (checkAccess_notServed.2 ⟨h, hv⟩)
  · exact memRead_ok.2 ⟨⟨h, hv⟩, Memory.wordAt_of_aligned _ h⟩

/-- Settles O10: the provider's test in its three cases, the four bytes of the stored word, and the frame of the store. -/
theorem memWriteStoresFourBytes : Obligations.MemWriteStoresFourBytes := by
  intro s a v hwf
  refine ⟨fun h => ?_, fun h hv => ?_, fun h hv => ?_⟩
  · exact memWrite_error.2 (checkAccess_misaligned.2 h)
  · exact memWrite_error.2 (checkAccess_notServed.2 ⟨h, hv⟩)
  · have hbyte {k : Nat} (hk : k < 4) := Memory.readByte_setWord_add (v := v) hwf h hk
    exact ⟨_, memWrite_ok.2 ⟨⟨h, hv⟩, rfl⟩, rfl, hbyte (k := 0) (by decide), hbyte (by decide), hbyte (by decide),
      hbyte (by decide), fun _ => Memory.readByte_setWord_outside hwf h⟩

/-- Settles O11: the word at the stored address is the stored one, and a disjoint word is read as before. -/
theorem alignedWordsAreIndependent : Obligations.AlignedWordsAreIndependent := by
  intro s t a v c hwf hw hc
  obtain ⟨⟨ha, hv⟩, rfl⟩ := memWrite_ok.1 hw
  split
  next h =>
    subst h
    exact memRead_ok.2 ⟨⟨hc, hv⟩, Memory.wordAt_setWord_same hwf hc⟩
  next h => exact memRead_congr rfl (Memory.wordAt_setWord_other hwf ha hc h)

/-- Of two canonical memories that read the same, neither lists an address before the other's first: its byte there would
read as unlisted in the other. -/
theorem Memory.not_head_lt {a b : Nat} {u v : Byte} {m n : Memory} (hm : Memory.wf ((a, u) :: m) = true)
    (hn : Memory.wf ((b, v) :: n) = true) (h : Memory.readByte ((a, u) :: m) a = Memory.readByte ((b, v) :: n) a) :
    ¬ a < b := by
  intro hlt
  obtain ⟨-, hu, -, -⟩ := (Memory.wf_cons a u m).1 hm
  obtain ⟨-, -, hbn, -⟩ := (Memory.wf_cons b v n).1 hn
  rw [Memory.readByte_cons, if_pos rfl, Memory.readByte_cons, if_neg (Nat.ne_of_lt hlt),
    Memory.readByte_above hbn (Nat.le_of_lt hlt)] at h
  exact hu h

/-- A nonempty canonical memory does not read as an empty one. -/
theorem Memory.readByte_head_ne {a : Nat} {u : Byte} {m : Memory} (hm : Memory.wf ((a, u) :: m) = true) :
    Memory.readByte ((a, u) :: m) a ≠ Memory.readByte [] a := by
  obtain ⟨-, hu, -, -⟩ := (Memory.wf_cons a u m).1 hm
  rwa [Memory.readByte_cons, if_pos rfl]

/-- Settles O12, by induction on one memory and cases on the other: their first entries are at the same address, hence
equal, and what follows reads the same. -/
theorem canonicalMemoriesAreEqualWhenTheyReadEqual : Obligations.CanonicalMemoriesAreEqualWhenTheyReadEqual := by
  intro m
  induction m with
  | nil =>
    intro n _ hn h
    cases n with
    | nil => rfl
    | cons q n => exact absurd (h q.1).symm (Memory.readByte_head_ne hn)
  | cons p m ih =>
    intro n hm hn h
    cases n with
    | nil => exact absurd (h p.1) (Memory.readByte_head_ne hm)
    | cons q n =>
      obtain ⟨a, u⟩ := p
      obtain ⟨b, v⟩ := q
      obtain rfl : a = b := Nat.le_antisymm (Nat.le_of_not_lt (Memory.not_head_lt hn hm (h b).symm))
        (Nat.le_of_not_lt (Memory.not_head_lt hm hn (h a)))
      obtain ⟨-, -, ham, hm'⟩ := (Memory.wf_cons a u m).1 hm
      obtain ⟨-, -, han, hn'⟩ := (Memory.wf_cons a v n).1 hn
      simp only [Memory.readByte_cons] at h
      have huv : u = v := by simpa using h a
      have htail : ∀ c, Memory.readByte m c = Memory.readByte n c := by
        intro c
        by_cases hc : c = a
        · subst hc
          rw [Memory.readByte_above ham le_rfl, Memory.readByte_above han le_rfl]
        · simpa [hc] using h c
      rw [huv, ih n hm' hn' htail]

end Sys2Proof.Machine
end

section
/-!
Memory over a cycle (R71, R76, R87 to R92): the requests it makes, the bytes it can change, and the stored word seen by the
next fetch.
-/

namespace Sys2Proof.Machine

/-- Settles O40: the requests of the cycle's effect. -/
theorem requestsAreOneReadThenAtMostOneWrite : Obligations.RequestsAreOneReadThenAtMostOneWrite := by
  intro s t ir hf h
  rw [(hf.cycle h).bus]
  cases storeOf s (decodeWord ir) <;> rfl

/-- An instruction that makes a store completes exactly when the provider serves its address (R190, R254). -/
theorem exec_next_iff_serves {i : Instr} {s : State} {a v : Word} (h : storeOf s i = some (a, v)) :
    (∃ t, exec i s = .next t) ↔ Serves s a := by
  obtain ⟨rs1, rs2, imm, rfl, hq⟩ := eq_sw_of_storeOf h
  cases hq
  constructor
  · rintro ⟨t, ht⟩
    obtain ⟨u, hw, -⟩ := exec_sw_next.1 ht
    exact (memWrite_ok.1 hw).1
  · exact fun hs => ⟨_, exec_sw_next.2 ⟨_, memWrite_ok.2 ⟨hs, rfl⟩, rfl⟩⟩

/-- The cycle of a fetched store answers a next state exactly when the provider serves its address. -/
theorem step_next_iff_serves {s : State} {ir a v : Word} (hf : Fetches s ir)
    (hstore : storeOf s (decodeWord ir) = some (a, v)) : (∃ t, step s = .next t) ↔ Serves s a := by
  have hexec := exec_next_iff_serves ((storeOf_fetched s ir _).trans hstore)
  constructor
  · rintro ⟨t, ht⟩
    obtain ⟨w, u, hw, hx, -⟩ := step_next_inv ht
    exact hexec.1 ⟨u, hf.unique hw ▸ hx⟩
  · intro hs
    obtain ⟨u, hx⟩ := hexec.2 hs
    exact ⟨_, step_next_of_exec hf hx⟩

/-- Settles O41: without a store the cycle keeps memory; with one its address is served, hence aligned, and only the bytes
of the stored word can change. -/
theorem onlyStoresChangeMemory : Obligations.OnlyStoresChangeMemory := by
  refine ⟨fun _ => rfl, fun s t ir hwf hf h b hb => ?_⟩
  rw [(hf.cycle h).mem] at hb
  cases hstore : storeOf s (decodeWord ir) with
  | none => exact absurd (by rw [hstore, memAfter]) hb
  | some q =>
    obtain ⟨ha, -⟩ := (step_next_iff_serves hf hstore).1 ⟨t, h⟩
    obtain ⟨rs1, rs2, imm, hi, rfl⟩ := eq_sw_of_storeOf hstore
    refine ⟨rs1, rs2, imm, hi, ?_⟩
    by_contra hout
    rw [hstore, memAfter] at hb
    exact hb (Memory.readByte_setWord_outside hwf ha hout)

/-- Settles O42: the served store completes and leaves its word in memory, and the machine, still RUNNING at the default pc,
fetches it when it was stored there. -/
theorem storedWordIsFetchedNext : Obligations.StoredWordIsFetchedNext := by
  intro s ir rs1 rs2 imm hwf hf hi hs
  have hstore : storeOf s (decodeWord ir) = some (storeAddress s rs1 imm, readReg s rs2) := by rw [hi, storeOf]
  obtain ⟨t, ht⟩ := (step_next_iff_serves hf hstore).2 hs
  have c := hf.cycle ht
  have hpc : t.cur.pc = s.cur.pc + 4#32 := by rw [c.pc, hi, nextPc_of_not_transfers rfl]
  have hmem : t.mem = s.mem.setWord (storeAddress s rs1 imm) (readReg s rs2) := by rw [c.mem, hstore, memAfter]
  have hserves : Serves t (storeAddress s rs1 imm) := by rwa [Serves, c.served]
  have hread : memRead t (storeAddress s rs1 imm) = .ok (readReg s rs2) :=
    memRead_ok.2 ⟨hserves, hmem ▸ Memory.wordAt_setWord_same hwf hs.1⟩
  have hrun : t.run = true := by rw [c.run, hi]; rfl
  exact ⟨t, ht, hpc, hread, fun hnext => ⟨⟨hrun, c.phase⟩, by rw [hpc, ← hnext, hread]⟩⟩

end Sys2Proof.Machine
end

section
/-!
The decoder said once: what each opcode decodes to (R118, R122), and the cases a decoded word can be in.
-/

namespace Sys2Proof

theorem decodeWord_regReg {w : Word} (h : fieldOpcode w = 0x33#7) : decodeWord w = decodeRegReg w := by
  have h0 : w ≠ 0#32 := ne_zero_of_opcode (by simp [h])
  simp [decodeWord, h0, h]

theorem decodeWord_regImm {w : Word} (h : fieldOpcode w = 0x13#7) : decodeWord w = decodeRegImm w := by
  have h0 : w ≠ 0#32 := ne_zero_of_opcode (by simp [h])
  simp [decodeWord, h0, h]

theorem decodeWord_sw {w : Word} (h : fieldOpcode w = 0x23#7) :
    decodeWord w = .sw (fieldRs1 w) (fieldRs2 w) (immS w) := by
  have h0 : w ≠ 0#32 := ne_zero_of_opcode (by simp [h])
  simp [decodeWord, h0, h]

theorem decodeWord_bne {w : Word} (h : fieldOpcode w = 0x63#7) :
    decodeWord w = .bne (fieldRs1 w) (fieldRs2 w) (immB w) := by
  have h0 : w ≠ 0#32 := ne_zero_of_opcode (by simp [h])
  simp [decodeWord, h0, h]

theorem decodeWord_auipc {w : Word} (h : fieldOpcode w = 0x17#7) : decodeWord w = .auipc (fieldRd w) (immU w) := by
  have h0 : w ≠ 0#32 := ne_zero_of_opcode (by simp [h])
  simp [decodeWord, h0, h]

theorem decodeWord_jal {w : Word} (h : fieldOpcode w = 0x6F#7) : decodeWord w = .jal (fieldRd w) (immJ w) := by
  have h0 : w ≠ 0#32 := ne_zero_of_opcode (by simp [h])
  simp [decodeWord, h0, h]

theorem decodeRegReg_add {w : Word} (h3 : fieldFunct3 w = 0#3) (h7 : fieldFunct7 w = 0#7) :
    decodeRegReg w = .add (fieldRd w) (fieldRs1 w) (fieldRs2 w) := by
  rw [decodeRegReg, if_pos ⟨h7, h3⟩]

theorem decodeRegReg_slt {w : Word} (h3 : fieldFunct3 w = 2#3) (h7 : fieldFunct7 w = 0#7) :
    decodeRegReg w = .slt (fieldRd w) (fieldRs1 w) (fieldRs2 w) := by
  rw [decodeRegReg, if_neg (by simp [h3]), if_pos ⟨h7, h3⟩]

theorem decodeRegImm_addi {w : Word} (h3 : fieldFunct3 w = 0#3) :
    decodeRegImm w = .addi (fieldRd w) (fieldRs1 w) (immI w) := by
  rw [decodeRegImm, if_pos h3]

theorem decodeRegImm_slli {w : Word} (h3 : fieldFunct3 w = 1#3) :
    decodeRegImm w = .slli (fieldRd w) (fieldRs1 w) (immI w) := by
  rw [decodeRegImm, if_neg (by simp [h3]), if_pos h3]

/-- What a word decodes to, with the fields that decide it: one case per row of the opcode table, and its default row. -/
inductive DecodesTo (w : Word) : Instr → Prop
  | add (op : fieldOpcode w = 0x33#7) (f3 : fieldFunct3 w = 0#3) (f7 : fieldFunct7 w = 0#7) :
      DecodesTo w (.add (fieldRd w) (fieldRs1 w) (fieldRs2 w))
  | slt (op : fieldOpcode w = 0x33#7) (f3 : fieldFunct3 w = 2#3) (f7 : fieldFunct7 w = 0#7) :
      DecodesTo w (.slt (fieldRd w) (fieldRs1 w) (fieldRs2 w))
  | addi (op : fieldOpcode w = 0x13#7) (f3 : fieldFunct3 w = 0#3) :
      DecodesTo w (.addi (fieldRd w) (fieldRs1 w) (immI w))
  | slli (op : fieldOpcode w = 0x13#7) (f3 : fieldFunct3 w = 1#3) :
      DecodesTo w (.slli (fieldRd w) (fieldRs1 w) (immI w))
  | sw (op : fieldOpcode w = 0x23#7) : DecodesTo w (.sw (fieldRs1 w) (fieldRs2 w) (immS w))
  | bne (op : fieldOpcode w = 0x63#7) : DecodesTo w (.bne (fieldRs1 w) (fieldRs2 w) (immB w))
  | auipc (op : fieldOpcode w = 0x17#7) : DecodesTo w (.auipc (fieldRd w) (immU w))
  | jal (op : fieldOpcode w = 0x6F#7) : DecodesTo w (.jal (fieldRd w) (immJ w))
  | halt (zero : w = 0#32) : DecodesTo w .halt
  | unsupported (norow : tableMnemonic w = "UNSUPPORTED") : DecodesTo w (.unsupported w)

/-- The decoder's tests in their order (R118) lead to the cases. -/
theorem decodesTo_decodeWord (w : Word) : DecodesTo w (decodeWord w) := by
  generalize hi : decodeWord w = i
  have hdecode := hi
  unfold decodeWord decodeRegReg decodeRegImm at hi
  split_ifs at hi with zero op33 add slt op13 addi slli op23 op63 op17 op6F <;> subst hi
  · exact .halt zero
  · exact .add op33 add.2 add.1
  · exact .slt op33 slt.2 slt.1
  · exact .unsupported (tableMnemonic_eq_unsupported.2 hdecode)
  · exact .addi op13 addi
  · exact .slli op13 slli
  · exact .unsupported (tableMnemonic_eq_unsupported.2 hdecode)
  · exact .sw op23
  · exact .bne op63
  · exact .auipc op17
  · exact .jal op6F
  · exact .unsupported (tableMnemonic_eq_unsupported.2 hdecode)

/-- The words of unsupported instructions are those of the table's default row (R119, R123). -/
theorem wfUnsupported_iff {w : Word} : wfUnsupported w = true ↔ tableMnemonic w = "UNSUPPORTED" := by
  have hnamed : ∀ r ∈ opcodeRows, r.mnemonic ≠ "UNSUPPORTED" := by decide
  unfold wfUnsupported tableMnemonic
  cases hfind : opcodeRows.find? (·.covers w) with
  | none => simpa using hfind
  | some r =>
    have hmem := List.mem_of_find?_eq_some hfind
    have hcovers : r.covers w = true := by simpa using List.find?_some hfind
    simp only [Option.map_some, Option.getD_some, hnamed r hmem, iff_false, List.all_eq_true]
    exact fun h => by simpa [hcovers] using h r hmem

end Sys2Proof
end

section
/-!
The immediates a word holds (R110 to R114): where each bit comes from, and the range of each.
-/

namespace Sys2Proof

/-- A bit of a field is a bit of the word. -/
theorem getLsbD_field {w : Word} {start len k : Nat} (hk : k < len) :
    (w.extractLsb' start len).getLsbD k = w.getLsbD (start + k) := by
  rw [BitVec.getLsbD_extractLsb', decide_eq_true hk, Bool.true_and]

/-- A bit of a concatenation whose low part is a field of the word. -/
theorem getLsbD_append_field {w : Word} {start len m : Nat} (g : BitVec m) (k : Nat) :
    (g ++ w.extractLsb' start len).getLsbD k = if k < len then w.getLsbD (start + k) else g.getLsbD (k - len) := by
  rw [BitVec.getLsbD_append]
  split
  next h => exact getLsbD_field h
  next => rfl

/-- A bit of a concatenation whose low part is the fixed bit 0. -/
theorem getLsbD_append_zero {m : Nat} (g : BitVec m) (k : Nat) :
    (g ++ 0#1).getLsbD k = (decide (k ≠ 0) && g.getLsbD (k - 1)) := by
  rw [BitVec.getLsbD_append]
  by_cases h : k = 0 <;> simp [h]

/-- The bits of `sext` are those of the field, its top bit repeated (R16). -/
theorem getLsbD_sext_min {n : Nat} (f : BitVec n) {k : Nat} (hk : k < 32) :
    (sext f).getLsbD k = f.getLsbD (min k (n - 1)) := by
  rw [getLsbD_sext f k hk]
  split
  next h => rw [min_eq_left (by omega)]
  next h => rw [min_eq_right (by omega), BitVec.msb_eq_getLsbD_last]

section
variable (w : Word) {k : Nat}

theorem getLsbD_immI (hk : k < 32) : (immI w).getLsbD k = w.getLsbD (if k < 11 then k + 20 else 31) := by
  rw [immI, getLsbD_sext_min _ hk, getLsbD_field (by omega)]
  split_ifs <;> congr 1 <;> omega

theorem getLsbD_immS (hk : k < 32) :
    (immS w).getLsbD k = w.getLsbD (if k < 5 then k + 7 else if k < 11 then k + 20 else 31) := by
  rw [immS, getLsbD_sext_min _ hk, getLsbD_append_field, getLsbD_field (by omega)]
  split_ifs <;> congr 1 <;> omega

theorem getLsbD_immB (hk : k < 32) : (immB w).getLsbD k = (decide (k ≠ 0) &&
    w.getLsbD (if k < 5 then k + 7 else if k < 11 then k + 20 else if k = 11 then 7 else 31)) := by
  rw [immB, getLsbD_sext_min _ hk, getLsbD_append_zero, getLsbD_append_field, getLsbD_append_field, getLsbD_append_field,
    getLsbD_field (by omega)]
  rcases Nat.eq_zero_or_pos k with rfl | hpos
  · rfl
  · rw [decide_eq_true (by omega), decide_eq_true (by omega), Bool.true_and, Bool.true_and]
    split_ifs <;> congr 1 <;> omega

theorem getLsbD_immU (hk : k < 32) : (immU w).getLsbD k = (decide (12 ≤ k) && w.getLsbD k) := by
  rw [immU, BitVec.getLsbD_append]
  split
  next h => rw [BitVec.getLsbD_zero, decide_eq_false (by omega), Bool.false_and]
  next h => rw [getLsbD_field (by omega), decide_eq_true (by omega), Bool.true_and, Nat.add_sub_cancel' (by omega)]

theorem getLsbD_immJ (hk : k < 32) : (immJ w).getLsbD k = (decide (k ≠ 0) &&
    w.getLsbD (if k < 11 then k + 20 else if k = 11 then 20 else if k < 20 then k else 31)) := by
  rw [immJ, getLsbD_sext_min _ hk, getLsbD_append_zero, getLsbD_append_field, getLsbD_append_field, getLsbD_append_field,
    getLsbD_field (by omega)]
  rcases Nat.eq_zero_or_pos k with rfl | hpos
  · rfl
  · rw [decide_eq_true (by omega), decide_eq_true (by omega), Bool.true_and, Bool.true_and]
    split_ifs <;> congr 1 <;> omega

/-- The upper immediate is the word without its low twelve bits (R113). -/
theorem immU_eq_and : immU w = w &&& 0xFFFFF000#32 := by
  have hmask : ∀ i, i < 32 → (0xFFFFF000#32).getLsbD i = decide (12 ≤ i) := by decide
  refine BitVec.eq_of_getLsbD_eq fun i hi => ?_
  rw [getLsbD_immU w hi, BitVec.getLsbD_and, hmask i hi, Bool.and_comm]

end

/-- The signed value of `sext` lies in the range of the field's width (R16). -/
theorem toInt_sext_bounds {n : Nat} (f : BitVec n) (hn : n ≤ 32) :
    -(2 ^ (n - 1) : Int) ≤ (sext f).toInt ∧ (sext f).toInt < 2 ^ (n - 1) := by
  rw [toInt_sext f hn]
  exact ⟨f.le_toInt, f.toInt_lt⟩

/-- The signed value of an even Word is even. -/
theorem toInt_even {v : Word} (h : v.toNat % 2 = 0) : v.toInt % 2 = 0 := by
  rw [BitVec.toInt_eq_toNat_cond]
  split <;> omega

theorem wfImm12_iff {v : Word} : wfImm12 v = true ↔ -2048 ≤ v.toInt ∧ v.toInt ≤ 2047 := by
  simp [wfImm12]

theorem wfImmB_iff {v : Word} : wfImmB v = true ↔ -4096 ≤ v.toInt ∧ v.toInt ≤ 4094 ∧ v.toNat % 2 = 0 := by
  simp [wfImmB, and_assoc]

theorem wfImmU_iff {v : Word} : wfImmU v = true ↔ v.toNat % 4096 = 0 := decide_eq_true_iff

theorem wfImmJ_iff {v : Word} : wfImmJ v = true ↔ -1048576 ≤ v.toInt ∧ v.toInt ≤ 1048574 ∧ v.toNat % 2 = 0 := by
  simp [wfImmJ, and_assoc]

theorem wfImm12_sext (f : BitVec 12) : wfImm12 (sext f) = true := by
  obtain ⟨hlow, hhigh⟩ : -2048 ≤ (sext f).toInt ∧ (sext f).toInt < 2048 := toInt_sext_bounds f (by decide)
  exact wfImm12_iff.2 ⟨hlow, by omega⟩

theorem wfImm12_immI (w : Word) : wfImm12 (immI w) = true := wfImm12_sext _

theorem wfImm12_immS (w : Word) : wfImm12 (immS w) = true := wfImm12_sext _

/-- The greatest branch offset is even, so it is 4094 and not 4095 (R112). -/
theorem wfImmB_immB (w : Word) : wfImmB (immB w) = true := by
  have heven := toInt_even (immB_even w)
  obtain ⟨hlow, hhigh⟩ : -4096 ≤ (immB w).toInt ∧ (immB w).toInt < 4096 := toInt_sext_bounds (n := 13) _ (by decide)
  exact wfImmB_iff.2 ⟨hlow, by omega, immB_even w⟩

theorem wfImmU_immU (w : Word) : wfImmU (immU w) = true := by
  rw [wfImmU_iff, immU, BitVec.toNat_append, BitVec.toNat_ofNat, Nat.zero_mod, Nat.or_zero, Nat.shiftLeft_eq]
  exact Nat.mul_mod_left _ _

/-- The greatest jump offset is even, so it is 1048574 and not 1048575 (R114). -/
theorem wfImmJ_immJ (w : Word) : wfImmJ (immJ w) = true := by
  have heven := toInt_even (immJ_even w)
  obtain ⟨hlow, hhigh⟩ : -1048576 ≤ (immJ w).toInt ∧ (immJ w).toInt < 1048576 :=
    toInt_sext_bounds (n := 21) _ (by decide)
  exact wfImmJ_iff.2 ⟨hlow, by omega, immJ_even w⟩

/-- The greatest upper immediate is the greatest multiple of 4096 among the signed values (R113). -/
theorem toInt_le_of_wfImmU {v : Word} (h : wfImmU v = true) : v.toInt ≤ 2147479552 := by
  have hmod := wfImmU_iff.1 h
  have hlt := v.isLt
  rw [BitVec.toInt_eq_toNat_cond]
  split <;> omega

theorem DecodesTo.wf {w : Word} {i : Instr} (h : DecodesTo w i) : i.wf = true := by
  cases h with
  | addi _ _ => exact wfImm12_immI w
  | slli _ _ => exact wfImm12_immI w
  | sw _ => exact wfImm12_immS w
  | bne _ => exact wfImmB_immB w
  | auipc _ => exact wfImmU_immU w
  | jal _ => exact wfImmJ_immJ w
  | unsupported norow => exact wfUnsupported_iff.2 norow
  | _ => rfl

/-- Settles O3: in each case of what a word decodes to, its immediate is in range, or no row covers it. -/
theorem decodedInstructionsAreWellFormed : Obligations.DecodedInstructionsAreWellFormed := fun w =>
  (decodesTo_decodeWord w).wf

end Sys2Proof
end

section
/-!
An immediate of its format's range is read back from the word that encodes it (R104 to R108, R110 to R114).
-/

namespace Sys2Proof

theorem sext_low12 {v : Word} (h : wfImm12 v = true) : sext (v.extractLsb' 0 12) = v := by
  obtain ⟨hlow, hhigh⟩ := wfImm12_iff.1 h
  exact sext_low v (by decide) (by decide) hlow (hhigh.trans_lt (by decide))

theorem immI_encodeI {v : Word} (h : wfImm12 v = true) (rs1 : Reg) (f3 : BitVec 3) (rd : Reg) :
    immI (encodeI v rs1 f3 rd) = v := by
  obtain ⟨-, -, -, -, himm⟩ := fields_encodeI v rs1 f3 rd
  rw [himm, sext_low12 h]

theorem immS_encodeS_of_wf {v : Word} (h : wfImm12 v = true) (rs2 rs1 : Reg) : immS (encodeS v rs2 rs1) = v := by
  rw [immS_encodeS, sext_low12 h]

theorem immB_encodeB_of_wf {v : Word} (h : wfImmB v = true) (rs2 rs1 : Reg) : immB (encodeB v rs2 rs1) = v := by
  obtain ⟨hlow, hhigh, heven⟩ := wfImmB_iff.1 h
  rw [immB_encodeB v rs2 rs1 heven]
  exact sext_low v (by decide) (by decide) hlow (hhigh.trans_lt (by decide))

theorem immU_encodeU_of_wf {v : Word} (h : wfImmU v = true) (rd : Reg) : immU (encodeU v rd) = v := by
  obtain ⟨-, -, himm⟩ := fields_encodeU v rd
  have hmod := wfImmU_iff.1 h
  have hlt := v.isLt
  apply BitVec.eq_of_toNat_eq
  rw [immU, himm, BitVec.toNat_append, BitVec.extractLsb'_toNat, BitVec.toNat_ofNat, Nat.zero_mod, Nat.or_zero,
    Nat.shiftLeft_eq, Nat.shiftRight_eq_div_pow]
  omega

theorem immJ_encodeJ_of_wf {v : Word} (h : wfImmJ v = true) (rd : Reg) : immJ (encodeJ v rd) = v := by
  obtain ⟨hlow, hhigh, heven⟩ := wfImmJ_iff.1 h
  rw [immJ_encodeJ v rd heven]
  exact sext_low v (by decide) (by decide) hlow (hhigh.trans_lt (by decide))

/-- Settles O2, format by format: the fields of the encoded word select the instruction, and give each operand back. -/
theorem decodeOfEncodeIsIdentity : Obligations.DecodeOfEncodeIsIdentity := by
  intro i h
  cases i with
  | add rd rs1 rs2 =>
    obtain ⟨op, hrd, f3, hrs1, hrs2, f7⟩ := fields_encodeR 0#7 rs2 rs1 0#3 rd
    rw [encode, decodeWord_regReg op, decodeRegReg_add f3 f7, hrd, hrs1, hrs2]
  | slt rd rs1 rs2 =>
    obtain ⟨op, hrd, f3, hrs1, hrs2, f7⟩ := fields_encodeR 0#7 rs2 rs1 2#3 rd
    rw [encode, decodeWord_regReg op, decodeRegReg_slt f3 f7, hrd, hrs1, hrs2]
  | addi rd rs1 imm =>
    obtain ⟨op, hrd, f3, hrs1, -⟩ := fields_encodeI imm rs1 0#3 rd
    rw [encode, decodeWord_regImm op, decodeRegImm_addi f3, hrd, hrs1, immI_encodeI h]
  | slli rd rs1 imm =>
    obtain ⟨op, hrd, f3, hrs1, -⟩ := fields_encodeI imm rs1 1#3 rd
    rw [encode, decodeWord_regImm op, decodeRegImm_slli f3, hrd, hrs1, immI_encodeI h]
  | sw rs1 rs2 imm =>
    obtain ⟨op, hrs1, hrs2, -⟩ := fields_encodeS imm rs2 rs1
    rw [encode, decodeWord_sw op, hrs1, hrs2, immS_encodeS_of_wf h]
  | bne rs1 rs2 imm =>
    obtain ⟨op, hrs1, hrs2, -⟩ := fields_encodeB imm rs2 rs1
    rw [encode, decodeWord_bne op, hrs1, hrs2, immB_encodeB_of_wf h]
  | auipc rd imm =>
    obtain ⟨op, hrd, -⟩ := fields_encodeU imm rd
    rw [encode, decodeWord_auipc op, hrd, immU_encodeU_of_wf h]
  | jal rd imm =>
    obtain ⟨op, hrd, -⟩ := fields_encodeJ imm rd
    rw [encode, decodeWord_jal op, hrd, immJ_encodeJ_of_wf h]
  | halt => rfl
  | unsupported ir => exact tableMnemonic_eq_unsupported.1 (wfUnsupported_iff.1 h)

end Sys2Proof
end

section
/-!
A word is made of its own fields (R103 to R108): encoding what it decodes to gives the word back, but for the funct3 of a
store or a branch, which the decoder does not examine (R120).
-/

namespace Sys2Proof

section
variable (w : Word)

theorem fields_immI : (immI w).extractLsb' 0 12 = w.extractLsb' 20 12 := by
  refine extractLsb'_eq_of_bits fun i hi => ?_
  rw [getLsbD_immI w (by omega), getLsbD_field hi]
  split_ifs <;> congr 1 <;> omega

theorem fields_immS :
    (immS w).extractLsb' 5 7 = w.extractLsb' 25 7 ∧ (immS w).extractLsb' 0 5 = w.extractLsb' 7 5 := by
  refine ⟨?_, ?_⟩ <;> refine extractLsb'_eq_of_bits fun i hi => ?_ <;>
    rw [getLsbD_immS w (by omega), getLsbD_field hi] <;> split_ifs <;> congr 1 <;> omega

theorem fields_immB :
    (immB w).extractLsb' 12 1 = w.extractLsb' 31 1 ∧ (immB w).extractLsb' 11 1 = w.extractLsb' 7 1 ∧
    (immB w).extractLsb' 5 6 = w.extractLsb' 25 6 ∧ (immB w).extractLsb' 1 4 = w.extractLsb' 8 4 := by
  refine ⟨?_, ?_, ?_, ?_⟩ <;> refine extractLsb'_eq_of_bits fun i hi => ?_ <;>
    rw [getLsbD_immB w (by omega), decide_eq_true (by omega), Bool.true_and, getLsbD_field hi] <;>
    split_ifs <;> congr 1 <;> omega

theorem fields_immU : (immU w).extractLsb' 12 20 = w.extractLsb' 12 20 := by
  refine extractLsb'_eq_of_bits fun i hi => ?_
  rw [getLsbD_immU w (by omega), decide_eq_true (by omega), Bool.true_and, getLsbD_field hi]

theorem fields_immJ :
    (immJ w).extractLsb' 20 1 = w.extractLsb' 31 1 ∧ (immJ w).extractLsb' 12 8 = w.extractLsb' 12 8 ∧
    (immJ w).extractLsb' 11 1 = w.extractLsb' 20 1 ∧ (immJ w).extractLsb' 1 10 = w.extractLsb' 21 10 := by
  refine ⟨?_, ?_, ?_, ?_⟩ <;> refine extractLsb'_eq_of_bits fun i hi => ?_ <;>
    rw [getLsbD_immJ w (by omega), decide_eq_true (by omega), Bool.true_and, getLsbD_field hi] <;>
    split_ifs <;> congr 1 <;> omega

end

section
variable {w : Word}

theorem encodeR_fields {f3 : BitVec 3} {f7 : BitVec 7} (op : fieldOpcode w = 0x33#7) (h3 : fieldFunct3 w = f3)
    (h7 : fieldFunct7 w = f7) : encodeR f7 (fieldRs2 w) (fieldRs1 w) f3 (fieldRd w) = w := by
  refine BitVec.eq_of_getLsbD_eq fun i hi => ?_
  rw [getLsbD_encodeR, ← op, ← h3, ← h7, fieldOpcode, fieldRd, fieldFunct3, fieldRs1, fieldRs2, fieldFunct7]
  split_ifs <;> rw [getLsbD_field (by omega)] <;> congr 1 <;> omega

theorem encodeI_fields {f3 : BitVec 3} (op : fieldOpcode w = 0x13#7) (h3 : fieldFunct3 w = f3) :
    encodeI (immI w) (fieldRs1 w) f3 (fieldRd w) = w := by
  refine BitVec.eq_of_getLsbD_eq fun i hi => ?_
  rw [getLsbD_encodeI, fields_immI, ← op, ← h3, fieldOpcode, fieldRd, fieldFunct3, fieldRs1]
  split_ifs <;> rw [getLsbD_field (by omega)] <;> congr 1 <;> omega

theorem encodeS_fields (op : fieldOpcode w = 0x23#7) (h3 : fieldFunct3 w = 2#3) :
    encodeS (immS w) (fieldRs2 w) (fieldRs1 w) = w := by
  obtain ⟨hhigh, hlow⟩ := fields_immS w
  refine BitVec.eq_of_getLsbD_eq fun i hi => ?_
  rw [getLsbD_encodeS, hhigh, hlow, ← op, ← h3, fieldOpcode, fieldFunct3, fieldRs1, fieldRs2]
  split_ifs <;> rw [getLsbD_field (by omega)] <;> congr 1 <;> omega

theorem encodeB_fields (op : fieldOpcode w = 0x63#7) (h3 : fieldFunct3 w = 1#3) :
    encodeB (immB w) (fieldRs2 w) (fieldRs1 w) = w := by
  obtain ⟨h12, h11, h5, h1⟩ := fields_immB w
  refine BitVec.eq_of_getLsbD_eq fun i hi => ?_
  rw [getLsbD_encodeB, h12, h11, h5, h1, ← op, ← h3, fieldOpcode, fieldFunct3, fieldRs1, fieldRs2]
  split_ifs <;> rw [getLsbD_field (by omega)] <;> congr 1 <;> omega

theorem encodeU_fields (op : fieldOpcode w = 0x17#7) : encodeU (immU w) (fieldRd w) = w := by
  refine BitVec.eq_of_getLsbD_eq fun i hi => ?_
  rw [getLsbD_encodeU, fields_immU, ← op, fieldOpcode, fieldRd]
  split_ifs <;> rw [getLsbD_field (by omega)] <;> congr 1 <;> omega

theorem encodeJ_fields (op : fieldOpcode w = 0x6F#7) : encodeJ (immJ w) (fieldRd w) = w := by
  obtain ⟨h20, h12, h11, h1⟩ := fields_immJ w
  refine BitVec.eq_of_getLsbD_eq fun i hi => ?_
  rw [getLsbD_encodeJ, h20, h12, h11, h1, ← op, fieldOpcode, fieldRd]
  split_ifs <;> rw [getLsbD_field (by omega)] <;> congr 1 <;> omega

/-- Outside the stores and the branches the instruction encodes every bit of its word. -/
theorem DecodesTo.encode_eq {i : Instr} (h : DecodesTo w i) (hstore : fieldOpcode w ≠ 0x23#7)
    (hbranch : fieldOpcode w ≠ 0x63#7) : encode i = w := by
  cases h with
  | add op f3 f7 => exact encodeR_fields op f3 f7
  | slt op f3 f7 => exact encodeR_fields op f3 f7
  | addi op f3 => exact encodeI_fields op f3
  | slli op f3 => exact encodeI_fields op f3
  | sw op => exact absurd op hstore
  | bne op => exact absurd op hbranch
  | auipc op => exact encodeU_fields op
  | jal op => exact encodeJ_fields op
  | halt zero => exact zero.symm
  | unsupported _ => rfl

end

/-- The word with its funct3, bits 14:12, replaced, as the assembler fills the one of a store or a branch (R129). -/
def setFunct3 (w : Word) (f3 : BitVec 3) : Word := (w &&& 0xFFFF8FFF#32) ||| (f3.setWidth 32 <<< 12)

section
variable (w : Word) (f3 : BitVec 3)

theorem getLsbD_setFunct3 {k : Nat} (hk : k < 32) :
    (setFunct3 w f3).getLsbD k = if 12 ≤ k ∧ k < 15 then f3.getLsbD (k - 12) else w.getLsbD k := by
  have hmask : ∀ i, i < 32 → (0xFFFF8FFF#32).getLsbD i = !decide (12 ≤ i ∧ i < 15) := by decide
  rw [setFunct3, BitVec.getLsbD_or, BitVec.getLsbD_and, hmask k hk, BitVec.getLsbD_shiftLeft, BitVec.getLsbD_setWidth]
  split
  next h => simp [h, hk, show k - 12 < 32 by omega]
  next h =>
    have hout : k < 12 ∨ 3 ≤ k - 12 := by omega
    obtain hlow | hhigh := hout
    · simp [h, hlow]
    · simp [h, f3.getLsbD_of_ge _ hhigh]

theorem fieldFunct3_setFunct3 : fieldFunct3 (setFunct3 w f3) = f3 := by
  refine extractLsb'_eq_of_bits fun i hi => ?_
  rw [getLsbD_setFunct3 w f3 (by omega), if_pos (by omega), Nat.add_sub_cancel_left]

/-- A field that lies outside funct3 stays. -/
theorem extractLsb'_setFunct3 {start len : Nat} (hout : start + len ≤ 12 ∨ 15 ≤ start) (hend : start + len ≤ 32) :
    (setFunct3 w f3).extractLsb' start len = w.extractLsb' start len :=
  extractLsb'_eq_iff.2 fun i _ _ => by rw [getLsbD_setFunct3 w f3 (by omega), if_neg (by omega)]

theorem fieldOpcode_setFunct3 : fieldOpcode (setFunct3 w f3) = fieldOpcode w :=
  extractLsb'_setFunct3 w f3 (by decide) (by decide)

/-- The decoder does not examine the funct3 of a store (R120). -/
theorem decodeWord_setFunct3_sw (op : fieldOpcode w = 0x23#7) : decodeWord (setFunct3 w f3) = decodeWord w := by
  rw [decodeWord_sw op, decodeWord_sw ((fieldOpcode_setFunct3 w f3).trans op)]
  simp (disch := decide) only [fieldRs1, fieldRs2, immS, extractLsb'_setFunct3]

/-- The decoder does not examine the funct3 of a branch (R120). -/
theorem decodeWord_setFunct3_bne (op : fieldOpcode w = 0x63#7) : decodeWord (setFunct3 w f3) = decodeWord w := by
  rw [decodeWord_bne op, decodeWord_bne ((fieldOpcode_setFunct3 w f3).trans op)]
  simp (disch := decide) only [fieldRs1, fieldRs2, immB, extractLsb'_setFunct3]

end

/-- Settles O4: a store or a branch decodes as the word with the assembler's funct3, which its fields make up; any other word
is made up of its own. -/
theorem encodeOfDecodeKeepsExaminedBits : Obligations.EncodeOfDecodeKeepsExaminedBits := by
  intro w
  refine ⟨fun op => ?_, fun op => ?_, (decodesTo_decodeWord w).encode_eq⟩
  · show encode (decodeWord w) = setFunct3 w 2#3
    have op' := (fieldOpcode_setFunct3 w 2#3).trans op
    rw [← decodeWord_setFunct3_sw w 2#3 op, decodeWord_sw op', encode, encodeS_fields op' (fieldFunct3_setFunct3 w 2#3)]
  · show encode (decodeWord w) = setFunct3 w 1#3
    have op' := (fieldOpcode_setFunct3 w 1#3).trans op
    rw [← decodeWord_setFunct3_bne w 1#3 op, decodeWord_bne op', encode, encodeB_fields op' (fieldFunct3_setFunct3 w 1#3)]

end Sys2Proof
end

section
/-!
The opcode table (R118, R119), the immediates of each opcode (R110 to R114), and the words the spec writes out.
-/

namespace Sys2Proof

/-- Two rows that cover one word agree on the bits both examine. -/
theorem OpcodeRow.values_agree {r q : OpcodeRow} {w : Word} (hr : r.covers w = true) (hq : q.covers w = true) :
    r.value &&& q.mask = q.value &&& r.mask := by
  have hr' : w &&& r.mask = r.value := by simpa [OpcodeRow.covers] using hr
  have hq' : w &&& q.mask = q.value := by simpa [OpcodeRow.covers] using hq
  rw [← hr', ← hq', BitVec.and_assoc, BitVec.and_assoc, BitVec.and_comm r.mask]

/-- Settles O5: any two rows of the table differ on some bit that both examine. -/
theorem decoderFollowsOpcodeTable : Obligations.DecoderFollowsOpcodeTable := by
  have hdisjoint : ∀ r ∈ opcodeRows, ∀ q ∈ opcodeRows, r.value &&& q.mask = q.value &&& r.mask → r = q := by decide
  exact ⟨mnemonic_decodeWord, fun _ r hr q hq hrw hqw => hdisjoint r hr q hq (OpcodeRow.values_agree hrw hqw)⟩

/-- The reserved sub-functions of R122, by their fields. -/
theorem isReservedSubfunc_iff {w : Word} : isReservedSubfunc w = true ↔
    (fieldOpcode w = 0x33#7 ∧ (fieldFunct7 w ≠ 0#7 ∨ fieldFunct3 w ≠ 0#3 ∧ fieldFunct3 w ≠ 2#3)) ∨
    (fieldOpcode w = 0x13#7 ∧ fieldFunct3 w ≠ 0#3 ∧ fieldFunct3 w ≠ 1#3) := by
  simp [isReservedSubfunc]

theorem decodeWord_reserved {w : Word} (h : isReservedSubfunc w = true) : decodeWord w = .unsupported w := by
  obtain ⟨op, hf⟩ | ⟨op, h0, h1⟩ := isReservedSubfunc_iff.1 h
  · rw [decodeWord_regReg op, decodeRegReg, if_neg (by tauto), if_neg (by tauto)]
  · rw [decodeWord_regImm op, decodeRegImm, if_neg h0, if_neg h1]

/-- Opcode 0x13 is ADDI, SLLI or reserved (R118, R122). -/
theorem decodeWord_regImm_cases {w : Word} (op : fieldOpcode w = 0x13#7) :
    decodeWord w = .addi (fieldRd w) (fieldRs1 w) (immI w) ∨ decodeWord w = .slli (fieldRd w) (fieldRs1 w) (immI w) ∨
      isReservedSubfunc w = true := by
  rw [decodeWord_regImm op]
  by_cases h0 : fieldFunct3 w = 0#3
  · exact .inl (decodeRegImm_addi h0)
  by_cases h1 : fieldFunct3 w = 1#3
  · exact .inr (.inl (decodeRegImm_slli h1))
  · exact .inr (.inr (isReservedSubfunc_iff.2 (.inr ⟨op, h0, h1⟩)))

/-- Settles O6: the bits and the range of each immediate; the word that encodes a value in a field of its own opcode; and what
each opcode decodes to. -/
theorem immediatesPlaceEveryBit : Obligations.ImmediatesPlaceEveryBit := by
  refine ⟨fun w k hk => ?_, immU_eq_and, fun w => ?_, fun v => ?_, fun w => ?_, by decide, by decide, by decide⟩
  · exact ⟨getLsbD_immI w hk, getLsbD_immS w hk, getLsbD_immB w hk, getLsbD_immU w hk, getLsbD_immJ w hk⟩
  · exact ⟨wfImm12_iff.1 (wfImm12_immI w), wfImm12_iff.1 (wfImm12_immS w), wfImmB_iff.1 (wfImmB_immB w),
      ⟨wfImmU_iff.1 (wfImmU_immU w), (immU w).le_toInt, toInt_le_of_wfImmU (wfImmU_immU w)⟩,
      wfImmJ_iff.1 (wfImmJ_immJ w)⟩
  · exact ⟨fun h => ⟨⟨encodeI v 0 0 0, (fields_encodeI v 0 0 0).1, immI_encodeI h 0 0 0⟩,
        ⟨encodeS v 0 0, (fields_encodeS v 0 0).1, immS_encodeS_of_wf h 0 0⟩⟩,
      fun h => ⟨encodeB v 0 0, (fields_encodeB v 0 0).1, immB_encodeB_of_wf h 0 0⟩,
      fun h => ⟨encodeU v 0, (fields_encodeU v 0).1, immU_encodeU_of_wf h 0⟩,
      fun h => ⟨encodeJ v 0, (fields_encodeJ v 0).1, immJ_encodeJ_of_wf h 0⟩⟩
  · exact ⟨decodeWord_regImm_cases, decodeWord_sw, decodeWord_bne, decodeWord_auipc, decodeWord_jal⟩

/-- Settles O1, word by word. -/
theorem specWordsDecode : Obligations.SpecWordsDecode := by
  unfold Obligations.SpecWordsDecode
  decide

end Sys2Proof
end

section
/-!
The reserved sub-functions (R122, R234): an unsupported word halts with its diagnostic, and under the parameter's other value
a reserved word changes nothing but the pc.
-/

namespace Sys2Proof.Machine

/-- Under the value nop of `RESERVED_SUBFUNC` a reserved word's arm changes nothing (R234). -/
theorem unsupportedArm_nop {w : Word} (h : isReservedSubfunc w = true) (s : State) : unsupportedArm .nop w s = s :=
  if_pos ⟨rfl, h⟩

/-- Settles O23: the listed values of funct3 are the ones the decoder leaves out, and the two effects are those of the
Executor around the halt and around an arm that changes nothing. -/
theorem reservedSubfunctionsHalt : Obligations.ReservedSubfunctionsHalt := by
  refine ⟨fun w => ?_, fun w => decodeWord_reserved, by decide, rfl, fun w s h hpc => ?_, fun w s h hpc => ?_⟩
  · have hreg : ∀ f : BitVec 3, f ∈ [1, 3, 4, 5, 6, 7] ↔ f ≠ 0#3 ∧ f ≠ 2#3 := by decide
    have himm : ∀ f : BitVec 3, f ∈ [2, 3, 4, 5, 6, 7] ↔ f ≠ 0#3 ∧ f ≠ 1#3 := by decide
    rw [isReservedSubfunc_iff, hreg, himm]
  · have c := completion_of_exec_next (exec_unsupported w s)
    exact ⟨_, exec_unsupported w s, rfl, c.pc.trans hpc, c.regs⟩
  · refine ⟨_, executor_pure _ s, ?_, ?_, fun r => ?_⟩ <;> rw [unsupportedArm_nop h]
    · rfl
    · exact hpc
    · simp

end Sys2Proof.Machine
end

section
/-!
The Executor's frame over all ten instructions (R149, R152), and the step as a function of the current copy, the word at its
pc and `MemValid` (R140, R153, R154).
-/

namespace Sys2Proof.Machine

/-- Settles O26: the forced register, in the effect of every completed instruction. -/
theorem registerZeroIsForced : Obligations.RegisterZeroIsForced := fun _ _ _ h =>
  (completion_of_exec_next h).regs 0#5

/-- An instruction that transfers no control has no target (R202). -/
theorem transferTarget_of_not_transfers {i : Instr} (h : transfersControl i = false) (s : State) :
    transferTarget s i = none := by
  cases i with
  | bne _ _ _ => cases h
  | jal _ _ => cases h
  | _ => rfl

/-- A completed store had a served, hence aligned, address, and changed no byte outside its word (R73, R190). -/
theorem readByte_outside_store {i : Instr} {s t : State} {a v : Word} (hwf : Memory.wf s.mem = true)
    (h : exec i s = .next t) (hstore : storeOf s i = some (a, v)) {b : Nat} (hb : ¬ InWord a b) :
    t.mem.readByte b = s.mem.readByte b := by
  obtain ⟨ha, -⟩ := (exec_next_iff_serves hstore).1 ⟨t, h⟩
  rw [(completion_of_exec_next h).mem, hstore]
  exact Memory.readByte_setWord_outside hwf ha hb

/-- Settles O24: what an instruction never writes, and each other field by what a completed instruction makes of it. -/
theorem everyInstructionKeepsItsFrame : Obligations.EveryInstructionKeepsItsFrame := by
  intro i s t hwf h
  obtain ⟨hcur, hserved, hphase⟩ := exec_next_frame h
  have c := completion_of_exec_next h
  refine ⟨hcur, hserved, hphase, fun r h0 hr => ?_, c.regs 0#5, fun hi => ?_, fun hi => ⟨?_, ?_⟩,
    fun hstore => ⟨?_, fun b => ?_⟩, fun a v hstore b => readByte_outside_store hwf h hstore⟩
  · rw [c.regs, if_neg h0, regAfter_of_not_dest hr]
  · rw [c.pc, transferTarget_of_not_transfers hi, Option.getD_none]
  · rw [c.run, hi, Bool.not_false, Bool.and_true]
  · rw [c.diag, emittedDiag_of_not_halts hi, Option.none_or]
  · rw [c.bus, hstore, writeRequests, List.append_nil]
  · rw [c.mem, hstore, memAfter]

/-- An accepted step at a served pc fetches the word there (R72, R141). -/
theorem fetches_of_serves {s : State} (ha : Accepts s) (h : Serves s s.cur.pc) :
    Fetches s (s.mem.wordAt s.cur.pc) :=
  ⟨ha, memRead_ok.2 ⟨h, rfl⟩⟩

/-- A step whose fetch succeeds ends as the Executor does on the decoded word, after the Fetcher (R140). -/
theorem Fetches.coreStep_eq {s : State} {ir : Word} (h : Fetches s ir) :
    coreStep s = exec (decodeWord ir) (fetched s ir) := by
  obtain ⟨ha, hread⟩ := h
  rw [coreStep, rejectStep_none.2 ha, fetch_ok.2 ⟨hread, rfl⟩]

/-- Settles O29: the four bytes at an aligned pc are those of the word the step fetches, and the commit after a next state is
accepted. -/
theorem stepRunsTheDecodedInstruction : Obligations.StepRunsTheDecodedInstruction := by
  intro s i rest ha hs _ hdec
  rw [decode, ← Memory.wordAt_of_aligned _ hs.1] at hdec
  cases hdec
  refine ⟨(fetches_of_serves ha hs).coreStep_eq, ?_⟩
  rw [step]
  cases h : coreStep s with
  | next t => exact commit_of_coreStep_next h
  | fault f => rfl
  | refused r => rfl

section
variable {i : Instr} {s u : State}

/-- The Fetcher leaves states with the same current copy in agreement on every source. -/
theorem agreeOnSources_fetched (hcur : s.cur = u.cur) (ir : Word) : AgreeOnSources i (fetched s ir) (fetched u ir) :=
  agreeOnSources_of_cur_eq hcur

/-- The fetch of one word at one pc is the same request (R141). -/
theorem fetched_bus_eq (hcur : s.cur = u.cur) (ir : Word) : (fetched s ir).bus = (fetched u ir).bus := by
  rw [fetched_bus, fetched_bus, hcur]

/-- Where a fetched word faults, it faults with the same record on every state with the same current copy and `MemValid`,
whatever memory holds there (R153, R254). -/
theorem exec_fetched_fault_alike {f : Fault} {ir : Word} (hcur : s.cur = u.cur) (hserved : s.served = u.served)
    (hf : exec i (fetched s ir) = .fault f) :
    ∃ g, exec i (fetched u ir) = .fault g ∧ f.code = g.code ∧ f.addr = g.addr ∧ f.left.bus = g.left.bus := by
  obtain ⟨a, v, hstore, hfault⟩ := exec_fault.1 hf
  rw [(agreeOnSources_fetched hcur ir).storeOf_eq] at hstore
  have hleft : (refusedWrite (fetched s ir) a v).bus = (refusedWrite (fetched u ir) a v).bus := by
    rw [refusedWrite_bus, refusedWrite_bus, fetched_bus_eq hcur]
  rw [checkAccess_fetched, checkAccess_congr hserved, ← checkAccess_fetched u ir] at hfault
  rcases hfault with ⟨hc, rfl⟩ | ⟨hc, rfl⟩
  · exact ⟨_, exec_fault.2 ⟨a, v, hstore, .inl ⟨hc, rfl⟩⟩, rfl, rfl, hleft⟩
  · exact ⟨_, exec_fault.2 ⟨a, v, hstore, .inr ⟨hc, rfl⟩⟩, rfl, rfl, hleft⟩

/-- Two states with the same current copy that complete the same fetched word leave the same next copy, run flag, diagnostic
and requests (R153). -/
theorem exec_fetched_next_alike {t v : State} {ir : Word} (hcur : s.cur = u.cur) (hrun : s.run = u.run)
    (ht : exec i (fetched s ir) = .next t) (hv : exec i (fetched u ir) = .next v) :
    t.nxt = v.nxt ∧ t.run = v.run ∧ t.diag = v.diag ∧ t.bus = v.bus := by
  have agree := agreeOnSources_fetched (i := i) hcur ir
  have hpc : (fetched s ir).nxt.pc = (fetched u ir).nxt.pc := by rw [fetched_nxt_pc, fetched_nxt_pc, hcur]
  have c := completion_of_exec_next ht
  have c' := completion_of_exec_next hv
  refine ⟨nxt_eq_of_cur_eq (s := fetched s ir) (u := fetched u ir) hcur hpc ht hv, ?_, ?_, ?_⟩
  · rw [c.run, c'.run, fetched_run, fetched_run, hrun]
  · rw [c.diag, c'.diag, agree.emittedDiag_eq, fetched_diag, fetched_diag]
  · rw [c.bus, c'.bus, agree.storeOf_eq, fetched_bus_eq hcur]

end

/-- Settles O28: both steps fault alike at the fetch, or fetch the same word, and then both complete or both stores are
refused. -/
theorem stepDependsOnCurrentWordAndMemValid : Obligations.StepDependsOnCurrentWordAndMemValid := by
  intro s u hs hu hcur hserved hword
  by_cases hal : s.cur.pc.toNat % 4 = 0
  case neg =>
    rw [step_fault.1 (step_fetchMisaligned hs hal), step_fault.1 (step_fetchMisaligned hu (hcur ▸ hal)), hcur]
    exact ⟨rfl, rfl, rfl⟩
  cases hv : memValid s.served s.cur.pc with
  | false =>
    rw [step_fault.1 (step_fetchAccess hs hal hv),
      step_fault.1 (step_fetchAccess hu (hcur ▸ hal) (hcur ▸ hserved ▸ hv)), hcur]
    exact ⟨rfl, rfl, rfl⟩
  | true =>
    have fs := fetches_of_serves hs ⟨hal, hv⟩
    have fu : Fetches u (s.mem.wordAt s.cur.pc) :=
      ⟨hu, by rw [← hcur, ← memRead_congr hserved hword]; exact fs.2⟩
    generalize s.mem.wordAt s.cur.pc = ir at fs fu
    rw [fs.coreStep_eq, fu.coreStep_eq]
    cases h : exec (decodeWord ir) (fetched s ir) with
    | refused r => exact exec_not_refused h
    | fault f =>
      obtain ⟨g, hg, halike⟩ := exec_fetched_fault_alike hcur hserved h
      rw [hg]
      exact halike
    | next t =>
      cases h' : exec (decodeWord ir) (fetched u ir) with
      | refused r => exact exec_not_refused h'
      | fault g =>
        obtain ⟨f, hf, -⟩ := exec_fetched_fault_alike hcur.symm hserved.symm h'
        exact absurd (h.symm.trans hf) (by simp)
      | next v => exact exec_fetched_next_alike hcur (hs.1.trans hu.1.symm) h h'

end Sys2Proof.Machine
end

section
/-!
The register-register instructions (R170, R171): a word of their rows of the opcode table (R119), and the effect of an
instruction that writes one register and leaves everything else.
-/

namespace Sys2Proof.Machine

/-- A word of ADD's row is ADD of its three fields (R119, R170). -/
theorem decodeWord_of_add_row {w : Word} (h : w &&& 0xFE00707F#32 = 0x00000033#32) :
    decodeWord w = .add (fieldRd w) (fieldRs1 w) (fieldRs2 w) := by
  obtain ⟨op, f3, f7⟩ := (opcode_funct37_row (by decide)).1 h
  exact (decodeWord_regReg op).trans (decodeRegReg_add f3 f7)

/-- A word of SLT's row is SLT of its three fields (R119, R171). -/
theorem decodeWord_of_slt_row {w : Word} (h : w &&& 0xFE00707F#32 = 0x00002033#32) :
    decodeWord w = .slt (fieldRd w) (fieldRs1 w) (fieldRs2 w) := by
  obtain ⟨op, f3, f7⟩ := (opcode_funct37_row (by decide)).1 h
  exact (decodeWord_regReg op).trans (decodeRegReg_slt f3 f7)

/-- An instruction whose arm is one register write completes with the default pc, that register written, every other one
copied, register 0 forced, and nothing outside the next copy changed (R144 to R149). -/
theorem exec_effect_of_writeReg {i : Instr} {s : State} {rd : Reg} {v : Word}
    (h : exec i s = .next (forceZero (writeReg (copyRegs s) rd v))) (hpc : HasDefaultPc s) :
    ∃ t, exec i s = .next t ∧ t = { s with nxt := t.nxt } ∧ t.nxt.pc = s.cur.pc + 4#32 ∧
      ∀ r : Reg, readNxt t r = if r = 0#5 then 0#32 else if r = rd then v else readReg s r := by
  refine ⟨_, h, rfl, hpc, fun r => ?_⟩
  rw [readNxt_forceZero, readNxt_writeReg, readNxt_copyRegs]

/-- Settles O13: ADD's row, and its arm as a write of the sum to `rd`. -/
theorem addWritesWrappedSum : Obligations.AddWritesWrappedSum :=
  ⟨fun _ => decodeWord_of_add_row, decodeWord_of_add_row (by decide),
    fun rd rs1 rs2 s => exec_effect_of_writeReg (exec_add rd rs1 rs2 s)⟩

/-- Settles O14: SLT's row, and its arm as a write of the signed comparison to `rd`. -/
theorem sltWritesSignedComparison : Obligations.SltWritesSignedComparison :=
  ⟨fun _ => decodeWord_of_slt_row, decodeWord_of_slt_row (by decide),
    fun rd rs1 rs2 s => exec_effect_of_writeReg (exec_slt rd rs1 rs2 s)⟩

end Sys2Proof.Machine
end

section
/-!
The register-immediate instructions (R180, R181): a word of their rows of the opcode table (R119), and the part of an SLLI
word that decides what it does (R117, R121).
-/

namespace Sys2Proof.Machine

/-- A word of ADDI's row is ADDI of its two fields and its immediate (R119, R180). -/
theorem decodeWord_of_addi_row {w : Word} (h : w &&& 0x0000707F#32 = 0x00000013#32) :
    decodeWord w = .addi (fieldRd w) (fieldRs1 w) (immI w) := by
  obtain ⟨op, f3⟩ := (opcode_funct3_row (by decide)).1 h
  exact (decodeWord_regImm op).trans (decodeRegImm_addi f3)

/-- A word of SLLI's row is SLLI of its two fields and its immediate (R119, R181). -/
theorem decodeWord_of_slli_row {w : Word} (h : w &&& 0x0000707F#32 = 0x00001013#32) :
    decodeWord w = .slli (fieldRd w) (fieldRs1 w) (immI w) := by
  obtain ⟨op, f3⟩ := (opcode_funct3_row (by decide)).1 h
  exact (decodeWord_regImm op).trans (decodeRegImm_slli f3)

/-- Settles O15: ADDI's row, and its arm as a write of the sum to `rd`. -/
theorem addiWritesWrappedSum : Obligations.AddiWritesWrappedSum :=
  ⟨fun _ => decodeWord_of_addi_row, decodeWord_of_addi_row (by decide), decodeWord_of_addi_row (by decide),
    fun rd rs1 imm s => exec_effect_of_writeReg (exec_addi rd rs1 imm s)⟩

/-- The low five bits of the immediate are the field `ir[24:20]`: the sign extension does not reach them (R117). -/
theorem immI_and_shamt_mask (w : Word) : immI w &&& 0x1F#32 = (fieldRs2 w).setWidth 32 := by
  have hmask : ∀ k, k < 32 → (0x1F#32).getLsbD k = decide (k < 5) := by decide
  apply BitVec.eq_of_getLsbD_eq
  intro k hk
  rw [BitVec.getLsbD_and, hmask k hk, getLsbD_immI w hk, BitVec.getLsbD_setWidth, decide_eq_true hk, Bool.true_and]
  by_cases h5 : k < 5
  · rw [decide_eq_true h5, Bool.and_true, if_pos (by omega), fieldRs2, getLsbD_field h5, Nat.add_comm]
  · rw [decide_eq_false h5, Bool.and_false, BitVec.getLsbD_of_ge _ _ (Nat.le_of_not_lt h5)]

/-- SLLI depends on its immediate through the shift amount alone (R117). -/
theorem exec_slli_congr {imm imm' : Word} (h : shiftAmount imm = shiftAmount imm') (rd rs1 : Reg) (s : State) :
    exec (.slli rd rs1 imm) s = exec (.slli rd rs1 imm') s := by
  rw [exec_slli, exec_slli, h]

section
variable {w v : Word}

/-- Words that differ in bits 31:25 alone agree on every field below them. -/
theorem extractLsb'_eq_of_low25_eq (h : w &&& 0x01FFFFFF#32 = v &&& 0x01FFFFFF#32) {start len : Nat}
    (hend : start + len ≤ 25) : w.extractLsb' start len = v.extractLsb' start len := by
  have hmask : ∀ i, i < 25 → (0x01FFFFFF#32).getLsbD i = true := by decide
  refine extractLsb'_eq_iff.2 fun i _ hi => ?_
  simpa [hmask i (by omega)] using congrArg (·.getLsbD i) h

/-- Words that differ in bits 31:25 alone shift by the same amount (R117). -/
theorem shiftAmount_immI_eq_of_low25_eq (h : w &&& 0x01FFFFFF#32 = v &&& 0x01FFFFFF#32) :
    shiftAmount (immI w) = shiftAmount (immI v) := by
  have hfield : fieldRs2 w = fieldRs2 v := extractLsb'_eq_of_low25_eq h (by decide)
  rw [shiftAmount, shiftAmount, immI_and_shamt_mask, immI_and_shamt_mask, hfield]

/-- SLLI's row examines none of bits 31:25 (R121). -/
theorem slli_row_of_low25_eq (h : w &&& 0x01FFFFFF#32 = v &&& 0x01FFFFFF#32)
    (hw : w &&& 0x0000707F#32 = 0x00001013#32) : v &&& 0x0000707F#32 = 0x00001013#32 := by
  have hmask : 0x01FFFFFF#32 &&& 0x0000707F#32 = 0x0000707F#32 := by decide
  rw [← hw, ← hmask, ← BitVec.and_assoc, ← BitVec.and_assoc, h]

/-- A word that differs from an SLLI word in bits 31:25 alone does the same (R121, D10). -/
theorem exec_slli_row_congr (hw : w &&& 0x0000707F#32 = 0x00001013#32)
    (h : w &&& 0x01FFFFFF#32 = v &&& 0x01FFFFFF#32) (s : State) : exec (decodeWord w) s = exec (decodeWord v) s := by
  have hrd : fieldRd w = fieldRd v := extractLsb'_eq_of_low25_eq h (by decide)
  have hrs1 : fieldRs1 w = fieldRs1 v := extractLsb'_eq_of_low25_eq h (by decide)
  rw [decodeWord_of_slli_row hw, decodeWord_of_slli_row (slli_row_of_low25_eq h hw), hrd, hrs1]
  exact exec_slli_congr (shiftAmount_immI_eq_of_low25_eq h) _ _ s

end

/-- Settles O16: SLLI's row, its arm as a write of the shifted Word to `rd`, and the masked immediate as the one part of
bits 31:20 that it reads. -/
theorem slliShiftsByMaskedImmediate : Obligations.SlliShiftsByMaskedImmediate :=
  ⟨fun _ => decodeWord_of_slli_row, decodeWord_of_slli_row (by decide), decodeWord_of_slli_row (by decide),
    immI_and_shamt_mask, fun rd rs1 imm s => exec_effect_of_writeReg (exec_slli rd rs1 imm s),
    fun _ _ s hw h => exec_slli_row_congr hw h s⟩

end Sys2Proof.Machine
end

section
/-!
The store instruction (R190): a word of its row of the opcode table (R119), and its three ends by the provider's test of the
address (R254).
-/

namespace Sys2Proof.Machine

/-- A word of SW's row is SW of its two fields and its immediate, whatever its funct3 (R119, R191). -/
theorem decodeWord_of_sw_row {w : Word} (h : w &&& 0x0000007F#32 = 0x00000023#32) :
    decodeWord w = .sw (fieldRs1 w) (fieldRs2 w) (immS w) :=
  decodeWord_sw ((opcode_row (by decide)).1 h)

section
variable {rs1 rs2 : Reg} {imm : Word} {s : State}

/-- SW at a misaligned address faults, with the refused write on record (R190, D7). -/
theorem exec_sw_misaligned (h : (storeAddress s rs1 imm).toNat % 4 ≠ 0) : exec (.sw rs1 rs2 imm) s =
    .fault (.storeMisaligned (storeAddress s rs1 imm) (refusedWrite s (storeAddress s rs1 imm) (readReg s rs2))) :=
  exec_sw_fault.2 (.inl ⟨checkAccess_misaligned.2 h, rfl⟩)

/-- SW at an aligned address that is not served faults, with the refused write on record (R190, D8). -/
theorem exec_sw_notServed (h : (storeAddress s rs1 imm).toNat % 4 = 0)
    (hserved : memValid s.served (storeAddress s rs1 imm) = false) : exec (.sw rs1 rs2 imm) s =
    .fault (.storeAccess (storeAddress s rs1 imm) (refusedWrite s (storeAddress s rs1 imm) (readReg s rs2))) :=
  exec_sw_fault.2 (.inr ⟨checkAccess_notServed.2 ⟨h, hserved⟩, rfl⟩)

/-- SW at a served address stores its word and puts the write on record, around the Executor's copy of the registers
(R145, R190). -/
theorem exec_sw_served (h : Serves s (storeAddress s rs1 imm)) : exec (.sw rs1 rs2 imm) s =
    .next (forceZero { copyRegs s with
      mem := s.mem.setWord (storeAddress s rs1 imm) (readReg s rs2)
      bus := s.bus ++ [.writeWord (storeAddress s rs1 imm) (readReg s rs2)] }) :=
  exec_sw_next.2 ⟨_, memWrite_ok.2 ⟨h, rfl⟩, rfl⟩

end

/-- Settles O17: SW's row, the two faults of a refused store, and the served store, whose word is read back at its address
and whose bytes are the only ones it changes. -/
theorem swStoresWord : Obligations.SwStoresWord := by
  refine ⟨fun _ => decodeWord_of_sw_row, decodeWord_of_sw_row (by decide), decodeWord_of_sw_row (by decide),
    decodeWord_of_sw_row (by decide),
    fun rs1 rs2 imm s => ⟨exec_sw_misaligned, exec_sw_notServed, fun hpc hwf hs => ?_⟩⟩
  have hexec := exec_sw_served (rs2 := rs2) hs
  refine ⟨_, hexec, rfl, hpc, (completion_of_exec_next hexec).regs, ?_, fun b => readByte_outside_store hwf hexec rfl⟩
  exact memRead_ok.2 ⟨hs, Memory.wordAt_setWord_same hwf hs.1⟩

end Sys2Proof.Machine
end

section
/-!
The branch instruction (R200): a word of its row of the opcode table (R119), and what a transfer of control leaves (R202).
-/

namespace Sys2Proof.Machine

/-- A word of BNE's row is BNE of its two fields and its immediate, whatever its funct3 (R119, R201). -/
theorem decodeWord_of_bne_row {w : Word} (h : w &&& 0x0000007F#32 = 0x00000063#32) :
    decodeWord w = .bne (fieldRs1 w) (fieldRs2 w) (immB w) :=
  decodeWord_bne ((opcode_row (by decide)).1 h)

/-- A transfer of control changes nothing outside the next copy (R33, R202). -/
theorem eq_with_nxt_of_transfers {i : Instr} {s t : State} (h : transfersControl i = true) (hx : exec i s = .next t) :
    t = { s with nxt := t.nxt } := by
  cases i with
  | bne rs1 rs2 imm => cases (exec_bne rs1 rs2 imm s).symm.trans hx; split <;> rfl
  | jal rd imm => cases (exec_jal rd imm s).symm.trans hx; rfl
  | _ => cases h

/-- After the Fetcher an instruction leads to the pc the table of R36 gives. -/
theorem Completion.pc_eq_nextPc {i : Instr} {s t : State} (c : Completion i s t) (hpc : HasDefaultPc s) :
    t.nxt.pc = nextPc s i := by
  rw [c.pc, hpc, nextPc_eq]

/-- Settles O18: BNE's row, and its completion as a transfer, whose pc is the table's and which writes no register. -/
theorem bneBranchesOnInequality : Obligations.BneBranchesOnInequality := by
  refine ⟨fun _ => decodeWord_of_bne_row, decodeWord_of_bne_row (by decide), decodeWord_of_bne_row (by decide),
    decodeWord_of_bne_row (by decide), decodeWord_of_bne_row (by decide), fun rs1 rs2 imm s hpc => ?_⟩
  have hexec := exec_bne rs1 rs2 imm s
  have c := completion_of_exec_next hexec
  exact ⟨_, hexec, eq_with_nxt_of_transfers rfl hexec, c.pc_eq_nextPc hpc, c.regs⟩

end Sys2Proof.Machine
end

section
/-!
The self loops (R299): a transfer to its own address that writes no register but register 0 repeats for ever.
-/

namespace Sys2Proof.Machine

/-- An instruction that transfers control from its own address to its own address, and names no destination but
register 0. -/
structure TransfersToSelf (i : Instr) (s : State) : Prop where
  transfers : transfersControl i = true
  target : nextPc s i = s.cur.pc
  dest : ∀ r, destOf i = some r → r = 0#5

/-- `JAL x0, 0` (R220). -/
theorem transfersToSelf_jal (s : State) : TransfersToSelf (.jal 0#5 0#32) s :=
  ⟨rfl, BitVec.add_zero s.cur.pc, fun _ h => (Option.some.inj h).symm⟩

/-- A BNE with offset 0 whose operands differ (R200). -/
theorem transfersToSelf_bne {s : State} {rs1 rs2 : Reg} (h : readReg s rs1 ≠ readReg s rs2) :
    TransfersToSelf (.bne rs1 rs2 0#32) s :=
  ⟨rfl, by rw [nextPc, if_pos h, BitVec.add_zero], nofun⟩

/-- Where an instruction leads depends on the current copy alone (R36, R39). -/
theorem nextPc_eq_of_cur_eq {s u : State} (h : s.cur = u.cur) (i : Instr) : nextPc s i = nextPc u i := by
  rw [nextPc_eq, nextPc_eq, (agreeOnSources_of_cur_eq h).transferTarget_eq, h]

/-- A cycle whose instruction names no destination but register 0 keeps every register (R32, R33, R149). -/
theorem Cycle.cur_x_eq {s t : State} {ir : Word} (c : Cycle s ir t) (hzero : readReg s 0#5 = 0#32)
    (hdest : ∀ r, destOf (decodeWord ir) = some r → r = 0#5) : t.cur.x = s.cur.x := by
  refine regs_ext fun r => (c.regs r).trans ?_
  by_cases h0 : r = 0#5
  · subst h0; exact hzero.symm
  · rw [if_neg h0, regAfter_of_not_dest (mt (hdest r) h0)]; rfl

/-- What repeats: the word `ir` is fetched, it transfers to itself, and register 0 reads zero. -/
structure SelfLoop (ir : Word) (s : State) : Prop where
  fetches : Fetches s ir
  toSelf : TransfersToSelf (decodeWord ir) s
  zero : readReg s 0#5 = 0#32

/-- The loop depends on the current copy, memory and `MemValid` alone, in a state that accepts a step. -/
theorem SelfLoop.of_eq {ir : Word} {s u : State} (h : SelfLoop ir s) (ha : Accepts u) (hcur : u.cur = s.cur)
    (hmem : u.mem = s.mem) (hserved : u.served = s.served) : SelfLoop ir u := by
  obtain ⟨⟨-, hread⟩, ⟨htransfers, htarget, hdest⟩, hzero⟩ := h
  refine ⟨⟨ha, ?_⟩, ⟨htransfers, ?_, hdest⟩, ?_⟩
  · rw [hcur, memRead_congr hserved (by rw [hmem]), hread]
  · rw [nextPc_eq_of_cur_eq hcur, htarget, hcur]
  · rw [← hzero, readReg, readReg]; simp only [hcur]

/-- One turn of the loop completes with the same current copy and memory, in the loop again. -/
theorem SelfLoop.step_next {ir : Word} {s : State} (h : SelfLoop ir s) :
    ∃ u, step s = .next u ∧ SelfLoop ir u ∧ u.cur = s.cur ∧ u.mem = s.mem := by
  obtain ⟨htransfers, htarget, hdest⟩ := h.toSelf
  have hstore := storeOf_of_transfers htransfers s
  obtain ⟨u, hu⟩ := fetchedNonStoresComplete s ir h.fetches hstore
  have c := h.fetches.cycle hu
  have hcur : u.cur = s.cur := congrArg₂ Arch.mk (c.pc.trans htarget) (c.cur_x_eq h.zero hdest)
  have hmem : u.mem = s.mem := by rw [c.mem, hstore, memAfter]
  have hrun : u.run = true := by rw [c.run, not_haltsMachine_of_transfers htransfers]; rfl
  exact ⟨u, hu, h.of_eq ⟨hrun, c.phase⟩ hcur hmem c.served, hcur, hmem⟩

/-- A run of any length in the loop completes there, RUNNING, with the same current copy and memory (R299). -/
theorem SelfLoop.run_next {ir : Word} (k : Nat) : ∀ {s : State}, SelfLoop ir s →
    ∃ t, Host.Core.run Sys2Proof.core k s = .next t ∧ t.run = true ∧ t.cur = s.cur ∧ t.mem = s.mem := by
  induction k with
  | zero => exact fun {s} h => ⟨s, run_zero s, h.fetches.1.1, rfl, rfl⟩
  | succ k ih =>
    intro s h
    obtain ⟨u, hstep, hloop, hcur, hmem⟩ := h.step_next
    obtain ⟨t, hrest, hrun, hcur', hmem'⟩ := ih hloop
    exact ⟨t, run_succ_next.2 ⟨u, hstep, hrest⟩, hrun, hcur'.trans hcur, hmem'.trans hmem⟩

/-- Settles O57: both words transfer to themselves, and the invariant has register 0 at zero, so the loop repeats. -/
theorem selfLoopsNeverHalt : Obligations.SelfLoopsNeverHalt := by
  rintro s ir ⟨hzero, -, -, -⟩ hf hword k
  have hself : TransfersToSelf (decodeWord ir) s := by
    rcases hword with rfl | ⟨rs1, rs2, hdec, hne⟩
    · have hdec : decodeWord 0x0000006F#32 = .jal 0#5 0#32 := decodeWord_jal (by decide)
      exact hdec ▸ transfersToSelf_jal s
    · exact hdec ▸ transfersToSelf_bne hne
  exact SelfLoop.run_next k ⟨hf, hself, hzero⟩

end Sys2Proof.Machine
end

section
/-!
The upper-immediate instruction (R210): a word of its row of the opcode table (R119), and its write of a value made of its
own address (R35).
-/

namespace Sys2Proof.Machine

/-- A word of AUIPC's row is AUIPC of its field and its immediate (R119, R210). -/
theorem decodeWord_of_auipc_row {w : Word} (h : w &&& 0x0000007F#32 = 0x00000017#32) :
    decodeWord w = .auipc (fieldRd w) (immU w) :=
  decodeWord_auipc ((opcode_row (by decide)).1 h)

/-- Settles O19: AUIPC's row, and its arm as a write of its own address plus the immediate to `rd`. -/
theorem auipcAddsToOwnAddress : Obligations.AuipcAddsToOwnAddress :=
  ⟨fun _ => decodeWord_of_auipc_row, decodeWord_of_auipc_row (by decide),
    fun rd imm s => exec_effect_of_writeReg (exec_auipc rd imm s)⟩

end Sys2Proof.Machine
end

section
/-!
The jump-and-link instruction (R220): a word of its row of the opcode table (R119), and its transfer of control with the link
in `rd`.
-/

namespace Sys2Proof.Machine

/-- A word of JAL's row is JAL of its field and its immediate (R119, R220). -/
theorem decodeWord_of_jal_row {w : Word} (h : w &&& 0x0000007F#32 = 0x0000006F#32) :
    decodeWord w = .jal (fieldRd w) (immJ w) :=
  decodeWord_jal ((opcode_row (by decide)).1 h)

/-- Settles O20: JAL's row, and its completion as a transfer, which always has its target, whatever the pc of the next copy
was, and leaves the link value in `rd`. -/
theorem jalLinksAndJumps : Obligations.JalLinksAndJumps := by
  refine ⟨fun _ => decodeWord_of_jal_row, decodeWord_of_jal_row (by decide), decodeWord_of_jal_row (by decide),
    decodeWord_of_jal_row (by decide), decodeWord_of_jal_row (by decide), fun rd imm s => ?_⟩
  have hexec := exec_jal rd imm s
  have c := completion_of_exec_next hexec
  exact ⟨_, hexec, eq_with_nxt_of_transfers rfl hexec, c.pc, c.regs⟩

end Sys2Proof.Machine
end

section
/-!
The halting instructions (R230, R232): the decoded words that halt, what HALT and UNSUPPORTED leave, and the precise state
and readable cause of a halting cycle (R252, R262, R298).
-/

namespace Sys2Proof

/-- HALT's row of the opcode table examines every bit (R119, R230). -/
theorem halt_row_iff_decodeWord {w : Word} : w &&& 0xFFFFFFFF#32 = 0x00000000#32 ↔ decodeWord w = .halt := by
  rw [decodeWord_eq_halt, show 0xFFFFFFFF#32 = BitVec.allOnes 32 from rfl, BitVec.and_allOnes]

/-- A nonzero word of no supported opcode is unsupported: it passes every test of the decoder (R118, R232). -/
theorem decodeWord_of_unsupported_opcode {w : Word} (zero : w ≠ 0#32) (op33 : fieldOpcode w ≠ 0x33#7)
    (op13 : fieldOpcode w ≠ 0x13#7) (op23 : fieldOpcode w ≠ 0x23#7) (op63 : fieldOpcode w ≠ 0x63#7)
    (op17 : fieldOpcode w ≠ 0x17#7) (op6F : fieldOpcode w ≠ 0x6F#7) : decodeWord w = .unsupported w := by
  rw [decodeWord, if_neg zero, if_neg op33, if_neg op13, if_neg op23, if_neg op63, if_neg op17, if_neg op6F]

end Sys2Proof

namespace Sys2Proof.Machine

/-- An instruction whose arm takes a halt completes with that halt taken, the default pc, every register copied, register 0
forced, and nothing else outside the next copy changed (R144 to R149, R262). -/
theorem exec_effect_of_takeHalt {i : Instr} {s : State} {c : HaltCause}
    (h : exec i s = .next (forceZero (takeHalt c (copyRegs s)))) (hpc : HasDefaultPc s) :
    ∃ t, exec i s = .next t ∧ t = { takeHalt c s with nxt := t.nxt } ∧ t.nxt.pc = s.cur.pc + 4#32 ∧
      ∀ r : Reg, readNxt t r = if r = 0#5 then 0#32 else readReg s r := by
  refine ⟨_, h, ?_, ?_, fun r => ?_⟩
  · cases c <;> rfl
  · rw [forceZero_nxt_pc, takeHalt_nxt, copyRegs_nxt_pc]
    exact hpc
  · rw [readNxt_forceZero, readNxt_takeHalt, readNxt_copyRegs]

/-- A decoded word that halts the machine is HALT when it is zero, and else UNSUPPORTED with itself (R230, R232). -/
theorem decodeWord_of_halts {ir : Word} (h : haltsMachine (decodeWord ir) = true) :
    decodeWord ir = if ir = 0#32 then .halt else .unsupported ir := by
  split
  next h0 => exact decodeWord_eq_halt.2 h0
  next h0 => exact tableMnemonic_eq_unsupported.1 ((haltsMachine_decodeWord.1 h).resolve_left h0)

/-- An instruction that halts names no destination (R33). -/
theorem destOf_of_halts {i : Instr} (h : haltsMachine i = true) : destOf i = none := by
  cases i with
  | halt => rfl
  | unsupported _ => rfl
  | _ => cases h

/-- An instruction that halts stores nothing (R76). -/
theorem storeOf_of_halts {i : Instr} (h : haltsMachine i = true) (s : State) : storeOf s i = none := by
  cases i with
  | halt => rfl
  | unsupported _ => rfl
  | _ => cases h

/-- An instruction that halts transfers no control: the pc it leaves is the default (R202). -/
theorem not_transfers_of_halts {i : Instr} (h : haltsMachine i = true) : transfersControl i = false := by
  cases i with
  | halt => rfl
  | unsupported _ => rfl
  | _ => cases h

section
variable {s t : State} {ir : Word}

/-- A cycle ends HALTED only by an instruction that halts (R42). -/
theorem Cycle.halts (c : Cycle s ir t) (hrun : t.run = false) : haltsMachine (decodeWord ir) = true := by
  rwa [c.run, Bool.not_eq_false'] at hrun

/-- A halting cycle leads to the address after the halting word (R36, D12). -/
theorem Cycle.pc_of_halted (c : Cycle s ir t) (hrun : t.run = false) : t.cur.pc = s.cur.pc + 4#32 :=
  c.pc.trans (nextPc_of_not_transfers (not_transfers_of_halts (c.halts hrun)) s)

/-- A halting cycle leaves memory as it was (R262). -/
theorem Cycle.mem_of_halted (c : Cycle s ir t) (hrun : t.run = false) : t.mem = s.mem := by
  rw [c.mem, storeOf_of_halts (c.halts hrun), memAfter]

/-- A halting cycle leaves the registers as they were (R262). -/
theorem Cycle.cur_x_of_halted (c : Cycle s ir t) (hzero : readReg s 0#5 = 0#32) (hrun : t.run = false) :
    t.cur.x = s.cur.x :=
  c.cur_x_eq hzero (by simp [destOf_of_halts (c.halts hrun)])

/-- The diagnostic out after a halting cycle tells the zero word, which emits none, from every other word (R55, R252). -/
theorem Cycle.diag_of_halted (c : Cycle s ir t) (hrun : t.run = false) :
    t.diag = if ir = 0#32 then none else some ⟨s.cur.pc, ir⟩ := by
  rw [c.diag, decodeWord_of_halts (c.halts hrun)]
  split <;> rfl

/-- The cause of a halting cycle is readable from its diagnostic (R44, R252). -/
theorem Cycle.haltCause_eq (c : Cycle s ir t) (hrun : t.run = false) :
    haltCause t = some (if ir = 0#32 then .sentinel else .unsupported ir) := by
  rw [haltCause, if_neg (by simp [hrun]), c.diag_of_halted hrun]
  by_cases h0 : ir = 0#32
  · rw [if_pos h0, if_pos h0]
  · rw [if_neg h0, if_neg h0]

end

/-- Settles O21: HALT's row, its arm as a taken halt, and its cycle; and a halting cycle without a diagnostic is that of the
zero word. -/
theorem haltStopsWithoutDiagnostic : Obligations.HaltStopsWithoutDiagnostic := by
  refine ⟨fun _ => halt_row_iff_decodeWord, fun s => exec_effect_of_takeHalt (exec_halt s), fun s hf => ?_,
    fun s t ir hf h hrun hdiag => ?_⟩
  · have hdec : decodeWord 0#32 = .halt := decodeWord_eq_halt.2 rfl
    have hstep := step_next_of_exec hf (hdec ▸ exec_halt (fetched s 0#32))
    have c := hf.cycle hstep
    exact ⟨_, hstep, rfl, c.diag_of_halted rfl, c.pc_of_halted rfl, c.mem_of_halted rfl⟩
  · by_contra h0
    rw [(hf.cycle h).diag_of_halted hrun, if_neg h0] at hdiag
    cases hdiag

/-- Settles O22: the decoder's default, and UNSUPPORTED's arm as a taken halt. -/
theorem unsupportedOpcodeHaltsWithDiagnostic : Obligations.UnsupportedOpcodeHaltsWithDiagnostic :=
  ⟨fun _ => decodeWord_of_unsupported_opcode, by decide, by decide,
    fun ir s => exec_effect_of_takeHalt (exec_unsupported ir s)⟩

/-- Settles O55: each part of the halting cycle's effect; the invariant has register 0 at zero, so that forcing it keeps the
registers too. -/
theorem haltLeavesAPreciseState : Obligations.HaltLeavesAPreciseState := by
  rintro s t ir ⟨hzero, -, -, -⟩ hf h hrun
  have c := hf.cycle h
  exact ⟨c.cur_x_of_halted hzero hrun, c.pc_of_halted hrun, c.mem_of_halted hrun, ⟨hrun, c.phase⟩, c.haltCause_eq hrun⟩

/-- Settles O56: the first cycle of the run is refused, and the run stops there. -/
theorem endedRunsStayEnded : Obligations.EndedRunsStayEnded := by
  rintro k s ⟨hrun, -⟩
  rw [run_succ, step_refused.2 (coreStep_halted hrun)]

end Sys2Proof.Machine
end

section
/-!
The faults of a cycle (R250, R253, R254): at the fetch by the address in the pc, at the Executor by the address of an SW, and
nowhere else (R255).
-/

namespace Sys2Proof.Machine

/-- Settles O30: the provider's test of the pc, alignment first. -/
theorem fetchFaultsByAddress : Obligations.FetchFaultsByAddress := fun _ ha =>
  ⟨step_fetchMisaligned ha, step_fetchAccess ha⟩

/-- The fetch faults by the address in the pc, alignment first (R253, R259). -/
theorem fetch_error_iff_address {s : State} {f : Fault} : fetch s = .error f ↔
    (s.cur.pc.toNat % 4 ≠ 0 ∧ f = .fetchMisaligned s.cur.pc ⟨s.mem, s.served, [.readRefused s.cur.pc]⟩) ∨
    (s.cur.pc.toNat % 4 = 0 ∧ memValid s.served s.cur.pc = false ∧
      f = .fetchAccess s.cur.pc ⟨s.mem, s.served, [.readRefused s.cur.pc]⟩) := by
  rw [fetch_error, checkAccess_misaligned, checkAccess_notServed, and_assoc]
  rfl

/-- A fetched instruction faults exactly when it is an SW whose address is misaligned or not served, with the fetch and the
refused write on record (R190, R254). -/
theorem exec_fetched_fault_iff_sw {i : Instr} {s : State} {ir : Word} {f : Fault} :
    exec i (fetched s ir) = .fault f ↔ ∃ rs1 rs2 imm, i = .sw rs1 rs2 imm ∧
      (((storeAddress s rs1 imm).toNat % 4 ≠ 0 ∧ f = .storeMisaligned (storeAddress s rs1 imm) ⟨s.mem, s.served,
          [.readWord s.cur.pc ir, .writeRefused (storeAddress s rs1 imm) (readReg s rs2)]⟩) ∨
       ((storeAddress s rs1 imm).toNat % 4 = 0 ∧ memValid s.served (storeAddress s rs1 imm) = false ∧
          f = .storeAccess (storeAddress s rs1 imm) ⟨s.mem, s.served,
            [.readWord s.cur.pc ir, .writeRefused (storeAddress s rs1 imm) (readReg s rs2)]⟩)) := by
  have hsw (rs1 rs2 : Reg) (imm : Word) := exec_sw_fault (rs1 := rs1) (rs2 := rs2) (imm := imm) (s := fetched s ir) (f := f)
  simp only [checkAccess_misaligned, checkAccess_notServed, and_assoc] at hsw
  constructor
  · intro h
    obtain ⟨a, v, hstore, -⟩ := exec_fault.1 h
    obtain ⟨rs1, rs2, imm, rfl, -⟩ := eq_sw_of_storeOf hstore
    exact ⟨rs1, rs2, imm, rfl, (hsw rs1 rs2 imm).1 h⟩
  · rintro ⟨rs1, rs2, imm, rfl, h⟩
    exact (hsw rs1 rs2 imm).2 h

/-- Settles O31: an accepted cycle faults at its fetch or at the Executor of the word it fetched, and either says by which
address. -/
theorem faultsAreExactlyTheListed : Obligations.FaultsAreExactlyTheListed := by
  intro s f
  rw [step_fault, coreStep_fault, fetch_error_iff_address]
  simp only [exec_fetched_fault_iff_sw, exists_and_left, or_assoc]

end Sys2Proof.Machine
end

section
/-!
The start of a program (R291, R293, R295): the image the loader places, the launch premises, and the first fetch.
-/

namespace Sys2Proof.Machine

section
variable {m : Memory} {p : Image}

/-- A memory holds an image when it holds the first word and the rest. -/
theorem holdsImage_cons {q : Word × Word} :
    HoldsImage (q :: p) m ↔ (q.1.toNat % 4 = 0 ∧ m.wordAt q.1 = q.2) ∧ HoldsImage p m :=
  List.forall_mem_cons

/-- A word stored at an aligned address that an image does not list leaves the image in place (R75). -/
theorem HoldsImage.setWord {a v : Word} (h : HoldsImage p m) (hm : Memory.wf m = true) (ha : a.toNat % 4 = 0)
    (hnew : a ∉ p.map Prod.fst) : HoldsImage p (m.setWord a v) := by
  intro q hq
  obtain ⟨hal, hword⟩ := h q hq
  have hne : q.1 ≠ a := fun e => hnew (e ▸ List.mem_map_of_mem hq)
  exact ⟨hal, (Memory.wordAt_setWord_other hm ha hal hne).trans hword⟩

/-- Placing an image leaves every byte outside its words (R293). -/
theorem Memory.readByte_loadImage_outside (hm : Memory.wf m = true) (hal : ∀ q ∈ p, q.1.toNat % 4 = 0) {b : Nat}
    (hb : ∀ q ∈ p, ¬ InWord q.1 b) : Memory.readByte (m.loadImage p) b = Memory.readByte m b := by
  induction p with
  | nil => rfl
  | cons q p ih =>
    obtain ⟨hq, hp⟩ := List.forall_mem_cons.1 hal
    obtain ⟨hbq, hbp⟩ := List.forall_mem_cons.1 hb
    rw [Memory.loadImage_cons, Memory.readByte_setWord_outside (Memory.loadImage_wf hm p) hq hbq, ih hp hbp]

/-- A placed image is held: each word is stored over a memory that holds the rest, at an address the rest does not list
(R293). -/
theorem holdsImage_loadImage (hm : Memory.wf m = true) (hal : ∀ q ∈ p, q.1.toNat % 4 = 0)
    (hdistinct : (p.map Prod.fst).Nodup) : HoldsImage p (m.loadImage p) := by
  induction p with
  | nil => exact nofun
  | cons q p ih =>
    obtain ⟨hq, hp⟩ := List.forall_mem_cons.1 hal
    obtain ⟨hnew, hrest⟩ := List.nodup_cons.1 hdistinct
    have hwf := Memory.loadImage_wf hm p
    exact holdsImage_cons.2 ⟨⟨hq, Memory.wordAt_setWord_same hwf hq⟩, (ih hp hrest).setWord hwf hq hnew⟩

end

/-- Settles O50: the placed image is held, in canonical memory, with its frame. -/
theorem loadedImagesAreHeld : Obligations.LoadedImagesAreHeld := fun _ p hm hal hdistinct =>
  ⟨holdsImage_loadImage hm hal hdistinct, Memory.loadImage_wf hm p, fun _ => Memory.readByte_loadImage_outside hm hal⟩

/-- Settles O49: the launch state is the reset state over `MEM_INIT` and `MemValid`, which meets each premise by the reset
table. -/
theorem launchMeetsItsPremises : Obligations.LaunchMeetsItsPremises := fun l _ =>
  ⟨fun hal hserved himage => ⟨rfl, rfl, ⟨rfl, hal, hserved⟩, himage, rfl⟩, fun hm => resetWith_inv l hm l.served⟩

/-- Settles O51: L-run and L-idle accept the step, L-pc serves its address, and L-image has the word there. -/
theorem firstFetchIsTheWordAtResetPc : Obligations.FirstFetchIsTheWordAtResetPc := by
  rintro l p s w ⟨hrun, -, ⟨hpc, hserves⟩, himage, hidle⟩ hw
  obtain ⟨-, hword⟩ := himage _ hw
  exact ⟨⟨hrun, hidle⟩, memRead_ok.2 (hpc ▸ ⟨hserves, hword⟩)⟩

end Sys2Proof.Machine
end
